-- ==== Sys2Proof/Word.lean ====
section
/-! DEFINITION. The Cell, the one word type of the machine (rule R6): a signed two's-complement integer of 64 bits. -/

namespace Sys2Proof

/-- Rule R6: a Cell, `CELL_BITS` = 64, signed two's complement. Memory cells, `ip`, `rb`, the halt
value, input values and output values are all Cells. Arithmetic is never done on the bits: a Cell is
read as its signed value `toInt`, and results are narrowed by `Machine.narrow`. -/
abbrev Cell := BitVec 64

/-- Rule R6: `CELL_MIN` = −2^63. -/
def cellMin : Int := -9223372036854775808

/-- Rule R6: `CELL_MAX` = 2^63 − 1. -/
def cellMax : Int := 9223372036854775807

/-- Rule R7: the exact result `x` is a Cell. -/
abbrev FitsCell (x : Int) : Prop := cellMin ≤ x ∧ x ≤ cellMax

/-- The Cell of signed value `x`, for `x` that fits. -/
def Cell.ofInt (x : Int) : Cell := BitVec.ofInt 64 x

end Sys2Proof
end

