-- ==== Sys2Proof/Config.lean ====
section
/-! DEFINITION. What is fixed for this hardware (rules R6 to R9 of spec/00_scope.md). No value of the spec is left
free: there is no opaque constant here. `OVERFLOW` = `Trap` (rule R7) is `Machine.narrow`, and `SUSPEND_ON_OUTPUT` = `false`
(rule R8) is `Machine.execWrite`, which leaves the status alone. -/

namespace Sys2Proof

/-- Rule R9: `RESET_IP` = 0 (decision D3 of the spec). -/
def Config.resetIp : Cell := 0

/-- Rule R9: `RESET_RB` = 0, "initialized to 0". -/
def Config.resetRb : Cell := 0

/-- Rules R9 and R57: `MEM_LIMIT` is none, so memory length may grow to `CELL_MAX` + 1 = 2^63 cells. -/
def Config.memoryCells : Nat := 9223372036854775808

/-- Rule R83: the largest instruction word, five decimal digits. -/
abbrev Config.maxRaw : Int := 99999

end Sys2Proof
end

