-- ==== Sys2Proof/Syntax.lean ====
section
/-! DEFINITION. Decoded instructions: a tag with the addressing mode of each parameter (rules R16, R90). The
literal words are not part of an instruction: they are whole cells that the step fetches (rules R80, R89, R123). -/

namespace Sys2Proof

/-- The three addressing modes (rules R87, R133). -/
inductive Mode where
  /-- Digit 0: the literal is an address. -/
  | position
  /-- Digit 1: the literal is the value. -/
  | immediate
  /-- Digit 2: the literal is an offset added to `rb`. -/
  | relative
deriving DecidableEq, Repr

/-- The ten instructions of opcode_table.json (rule R90), `m k` being the mode of parameter `k`. -/
inductive Instr where
  /-- Opcode 01 (rule R151). -/
  | add (m1 m2 m3 : Mode)
  /-- Opcode 02 (rule R152). -/
  | multiply (m1 m2 m3 : Mode)
  /-- Opcode 03 (rule R171). -/
  | read (m1 : Mode)
  /-- Opcode 04 (rule R172). -/
  | write (m1 : Mode)
  /-- Opcode 05 (rule R181). -/
  | jumpIfTrue (m1 m2 : Mode)
  /-- Opcode 06 (rule R182). -/
  | jumpIfFalse (m1 m2 : Mode)
  /-- Opcode 07 (rule R161). -/
  | lessThan (m1 m2 m3 : Mode)
  /-- Opcode 08 (rule R162). -/
  | equals (m1 m2 m3 : Mode)
  /-- Opcode 09 (rule R191). -/
  | relativeBaseOffset (m1 : Mode)
  /-- Opcode 99 (rule R196). -/
  | halt
deriving DecidableEq, Repr

/-- The five ways a word fails to decode (rules R92, R101 to R105, R201), with the arguments of rule R201. -/
inductive DecodeError where
  /-- Rule R101: `raw < 1` or `raw > 99999`. -/
  | rawOutOfRange
  /-- Rule R102: `op = raw mod 100` is not an opcode. -/
  | badOpcode (op : Nat)
  /-- Rule R103: the mode digit `d` of parameter `k` is above 2. -/
  | badModeDigit (k d : Nat)
  /-- Rule R104: the mode `m` is not legal for slot `k`. -/
  | modeNotLegalForSlot (k : Nat) (m : Mode)
  /-- Rule R105: a digit above the used mode digits is not 0. -/
  | extraneousDigits
deriving DecidableEq, Repr

/-- Rule R90: the number of parameters. -/
def Instr.arity : Instr → Nat
  | .add _ _ _ => 3
  | .multiply _ _ _ => 3
  | .read _ => 1
  | .write _ => 1
  | .jumpIfTrue _ _ => 2
  | .jumpIfFalse _ _ => 2
  | .lessThan _ _ _ => 3
  | .equals _ _ _ => 3
  | .relativeBaseOffset _ => 1
  | .halt => 0

/-- Rules R16 and R80: the length in cells, one more than the arity. -/
def Instr.size (i : Instr) : Nat := i.arity + 1

/-- Rule R90: the opcode number. -/
def Instr.opcode : Instr → Nat
  | .add _ _ _ => 1
  | .multiply _ _ _ => 2
  | .read _ => 3
  | .write _ => 4
  | .jumpIfTrue _ _ => 5
  | .jumpIfFalse _ _ => 6
  | .lessThan _ _ _ => 7
  | .equals _ _ _ => 8
  | .relativeBaseOffset _ => 9
  | .halt => 99

/-- The modes in parameter order. -/
def Instr.modes : Instr → List Mode
  | .add m1 m2 m3 => [m1, m2, m3]
  | .multiply m1 m2 m3 => [m1, m2, m3]
  | .read m1 => [m1]
  | .write m1 => [m1]
  | .jumpIfTrue m1 m2 => [m1, m2]
  | .jumpIfFalse m1 m2 => [m1, m2]
  | .lessThan m1 m2 m3 => [m1, m2, m3]
  | .equals m1 m2 m3 => [m1, m2, m3]
  | .relativeBaseOffset m1 => [m1]
  | .halt => []

end Sys2Proof
end

