-- ==== Sys2Proof/Machine/State.lean ====
section
/-! DEFINITION. The state of one Computer (spec/10_state.md) with the reference environment of its I/O capability
(rule R225), its state after reset (rule R40), and the reasons a step can stop. -/

namespace Sys2Proof.Machine

/-- The cause of a fault (rule R205), a decode cause carrying its arguments (rule R201). -/
inductive FaultCause where
  /-- Codes 1 to 5: the word at `ip` does not decode (rule R201). -/
  | decodeFault (e : DecodeError)
  /-- Code 6: an address about to be used is negative (rule R202). -/
  | negativeAddress
  /-- Code 7: a write target in Immediate mode (rule R203), reached only by an instruction built by hand. -/
  | immediateWrite
  /-- Code 8: an exact sum or product is not a Cell (rule R206). -/
  | overflow
deriving DecidableEq, Repr

/-- Rule R28: what a fault leaves in the status register. -/
structure FaultRecord where
  /-- The cause. -/
  cause : FaultCause
  /-- `ip` at the start of the faulting step. -/
  faultIp : Cell
  /-- The word fetched at `faultIp`; absent only when the fetch itself faulted. -/
  faultRaw : Option Cell
  /-- The offending address of a negative-address fault. -/
  faultAddr : Option Cell
deriving DecidableEq, Repr

/-- Rule R26: the execution-state register. -/
inductive Status where
  /-- Ready after load, or in a run (rule R146). -/
  | running
  /-- A Read found no input; `ip` is already past it. -/
  | waitingOnInput
  /-- Halt executed; `value` is cell 0 at that moment (rule R27). -/
  | halted (value : Cell)
  /-- A fatal fault stopped the machine (rule R28). -/
  | faulted (record : FaultRecord)
deriving DecidableEq, Repr

/-- The memory's cells (rule R32): pairs of an address and the Cell there, addresses strictly rising, no pair with
value 0. An address not listed holds 0 (rules R32, R57). The addressable unit is the whole Cell (rule R50). -/
abbrev Memory := List (Nat × Cell)

/-- The complete state of one Computer (spec/10_state.md), and its environment. -/
structure State where
  /-- The content of memory (rule R32). -/
  mem : Memory
  /-- The memory length `len` (rule R36). -/
  len : Nat
  /-- The instruction pointer (rule R21). -/
  ip : Cell
  /-- The relative-base register (rule R25). -/
  rb : Cell
  /-- The execution state (rule R26). -/
  status : Status
  /-- The environment's input queue, front first (rule R225). -/
  inq : List Cell
  /-- The environment's output sequence, oldest first (rule R225). -/
  out : List Cell
deriving DecidableEq, Repr

/-- Why a step stops with a fault of the host's interface. The machine's own faults are not stops: a step that raises one
answers the next state, with status `faulted` (rule R208). -/
inductive Fault where
  /-- Raised by `step` alone, in a machine whose status is already `faulted`: it takes no step ever again (rule R211).
  Safe: the machine does not go on either. -/
  | stopped (record : FaultRecord)
deriving DecidableEq, Repr

/-- Why a step or a host action is refused. -/
inductive Refusal where
  /-- Raised by `exec` for an instruction that has no meaning yet. Safe. No arm answers it: all ten are modelled. -/
  | notModelled (mnemonic : String)
  /-- Raised by `step` alone, in a machine that waits on input: only the host's `run` wakes it (rules R142, R232;
  `enterRun`). Safe: the machine takes no step either. -/
  | waitingOnInput
  /-- Raised by `step` and by `enterRun` on a halted machine (rule R145). Safe: the spec gives it no meaning. -/
  | halted (value : Cell)
  /-- Raised by `enterRun` on a faulted machine (rules R145, R211). Safe: the spec gives it no meaning. -/
  | faulted (record : FaultRecord)
deriving DecidableEq, Repr

/-- Rule R40, for the empty image (rule R241) and an environment with no input and no output: the machine right after
`load`. A program comes in by `Machine.load`. -/
def State.reset : State where
  mem := []
  len := 0
  ip := Config.resetIp
  rb := Config.resetRb
  status := .running
  inq := []
  out := []

end Sys2Proof.Machine
end

