-- ==== Sys2Proof/Machine/Alu.lean ====
section
/-! DEFINITION. What a step can raise (rule R15), and the checked arithmetic of the integer ALU (rules R14, R153). -/

namespace Sys2Proof.Machine

/-- What `raise F(info)` carries (rule R15): the cause, and the offending address of an address fault. -/
structure Trap where
  /-- The cause (rule R205). -/
  cause : FaultCause
  /-- The negative address, where there is one. -/
  addr : Option Cell
deriving DecidableEq, Repr

/-- `DecodeFault(e)` (rule R201). -/
def Trap.decodeFault (e : DecodeError) : Trap := ⟨.decodeFault e, none⟩

/-- `AddressFault(NegativeAddress, a)` (rule R202). -/
def Trap.negativeAddress (a : Cell) : Trap := ⟨.negativeAddress, some a⟩

/-- `AddressFault(ImmediateWrite)` (rule R203). -/
def Trap.immediateWrite : Trap := ⟨.immediateWrite, none⟩

/-- `ArithmeticFault(Overflow)` (rule R206). -/
def Trap.overflow : Trap := ⟨.overflow, none⟩

/-- A part of a step: its result, or the fault it raises. -/
abbrev Attempt (α : Type) := Except Trap α

/-- Rules R7 and R153 (c): an exact result becomes the Cell of that value, and one that is no Cell raises Overflow. -/
def narrow (x : Int) : Attempt Cell :=
  if FitsCell x then .ok (Cell.ofInt x) else .error Trap.overflow

/-- Rule R14: `cadd`. -/
def cadd (a b : Cell) : Attempt Cell := narrow (a.toInt + b.toInt)

/-- Rule R14: `cmul`. -/
def cmul (a b : Cell) : Attempt Cell := narrow (a.toInt * b.toInt)

end Sys2Proof.Machine
end

