-- ==== Sys2Proof/Machine/Flags.lean ====
section
/-! DEFINITION. The machine has no flags and no condition codes (rule R24). Truth is a Cell: the comparisons
produce 1 or 0 and the jumps consume any Cell (rule R163). -/

namespace Sys2Proof.Machine

/-- Rule R163: truth produced, exactly 1 or exactly 0. -/
def truthCell (b : Bool) : Cell := if b then 1 else 0

/-- Rule R161: the signed strict comparison of two Cells. -/
def lessCell (a b : Cell) : Cell := truthCell (decide (a.toInt < b.toInt))

/-- Rule R162: equality of two whole Cells. -/
def equalCell (a b : Cell) : Cell := truthCell (decide (a = b))

/-- Rules R163 and R180: truth consumed, any non-zero Cell being true. -/
def isTrue (c : Cell) : Bool := decide (c ≠ 0)

end Sys2Proof.Machine
end

