-- ==== Sys2Proof/Machine/Ops.lean ====
section
/-! DEFINITION. The named operations over memory and registers: the one grow-on-demand accessor (rules R55 to R57), the
register writes, the I/O capability (rules R223 to R225), and the one operation that takes a fault (rules R208, R210). -/

namespace Sys2Proof.Machine

/-- The Cell at an address, 0 where none is listed (rule R57 (a)). -/
def Memory.read : Memory → Nat → Cell
  | [], _ => 0
  | (b, w) :: rest, a => if a = b then w else Memory.read rest a

/-- Lists a Cell at its place among rising addresses. -/
def Memory.insert : Memory → Nat → Cell → Memory
  | [], a, v => [(a, v)]
  | (b, w) :: rest, a, v =>
    if a < b then (a, v) :: (b, w) :: rest
    else if a = b then (a, v) :: rest
    else (b, w) :: Memory.insert rest a v

/-- Takes an address off the list. -/
def Memory.erase : Memory → Nat → Memory
  | [], _ => []
  | (b, w) :: rest, a =>
    if a = b then Memory.erase rest a else (b, w) :: Memory.erase rest a

/-- Stores a Cell. Storing 0, which an unlisted address reads as, takes the address off the list. -/
def Memory.write (m : Memory) (a : Nat) (v : Cell) : Memory :=
  if v = 0 then Memory.erase m a else Memory.insert m a v

/-- The canonical form: addresses strictly rising, no value 0. -/
def Memory.wf : Memory → Bool
  | [] => true
  | (a, v) :: rest => decide (v ≠ 0) && rest.all (fun e => decide (a < e.1)) && Memory.wf rest

/-- The Cell at address `a`. -/
def State.cell (s : State) (a : Nat) : Cell := Memory.read s.mem a

/-- The address a Cell names, for a Cell that is not negative (rule R32). -/
def cellAddress (c : Cell) : Nat := c.toInt.toNat

/-- Rule R57 (b): growth to `a`. If `a ≥ len` then `len` becomes `a + 1`; the new cells hold 0 already. -/
def State.grow (s : State) (a : Nat) : State := { s with len := max s.len (a + 1) }

/-- The store half of the write accessor, for an address that exists (rule R56): grow, then store. -/
def State.store (s : State) (a : Nat) (v : Cell) : State :=
  { s with mem := Memory.write s.mem a v, len := max s.len (a + 1) }

/-- `ip <- c`. -/
def State.setIp (s : State) (c : Cell) : State := { s with ip := c }

/-- `rb <- c`. -/
def State.setRb (s : State) (c : Cell) : State := { s with rb := c }

/-- `status <- st`. -/
def State.setStatus (s : State) (st : Status) : State := { s with status := st }

/-- The one negative-address check, made before any growth (rules R55, R58). -/
def checkAddress (a : Cell) : Attempt Nat :=
  if a.toInt < 0 then .error (Trap.negativeAddress a) else .ok (cellAddress a)

/-- Rule R55: `MemRead(a, 1)`, the Cell read and the state after the growth. -/
def memRead (a : Cell) (s : State) : Attempt (Cell × State) := do
  let n ← checkAddress a
  .ok (s.cell n, s.grow n)

/-- Rule R56: `MemWrite(a, 1, v)`. -/
def memWrite (a v : Cell) (s : State) : Attempt State := do
  let n ← checkAddress a
  .ok (s.store n v)

/-- Rule R135: the address `size` cells on, or Overflow. -/
def advance (size : Nat) (s : State) : Attempt Cell := cadd s.ip (BitVec.ofNat 64 size)

/-- Rules R223 and R225: `TryRead()`. `some v` is `Value(v)`, consumed from the front of the queue; `none` is
`Unavailable`, which consumes nothing. -/
def tryRead (s : State) : Option Cell × State :=
  match s.inq with
  | [] => (none, s)
  | v :: rest => (some v, { s with inq := rest })

/-- Rules R224 and R225: `Emit(v)`, which always succeeds. -/
def State.emit (s : State) (v : Cell) : State := { s with out := s.out ++ [v] }

/-- Rule R28: the word fetched at `ip`, absent only when the fetch itself faults (rule R121). -/
def State.fetchedWord (s : State) : Option Cell :=
  if s.ip.toInt < 0 then none else some (s.cell (cellAddress s.ip))

/-- Rule R208: the record of a fault raised by the step that begins in `s`. -/
def faultRecord (t : Trap) (s : State) : FaultRecord where
  cause := t.cause
  faultIp := s.ip
  faultRaw := s.fetchedWord
  faultAddr := t.addr

/-- Taking a fault, the machine's only exception entry (rules R15, R208, R210): from the state `s` in which the step
began, `status <- Faulted(record)` and nothing else changes. There is no handler and no return (rule R211). -/
def raise (t : Trap) (s : State) : State := s.setStatus (.faulted (faultRecord t s))

/-- Rule R120: a step begun in `s` commits all its effects together, or raises a fault and commits none. -/
def commit (s : State) (r : Attempt State) : Host.Outcome State Fault Refusal :=
  match r with
  | .ok t => .next t
  | .error t => .next (raise t s)

/-- Rule R205: the cause codes. -/
def FaultCause.code : FaultCause → Nat
  | .decodeFault .rawOutOfRange => 1
  | .decodeFault (.badOpcode _) => 2
  | .decodeFault (.badModeDigit _ _) => 3
  | .decodeFault (.modeNotLegalForSlot _ _) => 4
  | .decodeFault .extraneousDigits => 5
  | .negativeAddress => 6
  | .immediateWrite => 7
  | .overflow => 8

/-- Rules R142 and R232: a machine that waits on input takes no step. -/
def stopWaiting : Host.Outcome State Fault Refusal := .refused .waitingOnInput

/-- Rule R145: a halted machine takes no step. -/
def stopHalted (v : Cell) : Host.Outcome State Fault Refusal := .refused (.halted v)

/-- Rule R211: a faulted machine takes no step. -/
def stopFaulted (r : FaultRecord) : Host.Outcome State Fault Refusal := .fault (.stopped r)

end Sys2Proof.Machine
end

