-- ==== Sys2Proof/Machine/Operands.lean ====
section
/-! DEFINITION. Fetching the cells of an instruction and resolving its parameters: every operand form (rules R121,
R123 to R133). Each operation hands on the state after its growth; the contents of memory do not change here. -/

namespace Sys2Proof.Machine

/-- Rule R121: `MemRead(ip, 1)`. -/
def fetchWord (s : State) : Attempt (Cell × State) := memRead s.ip s

/-- Rule R123: literal `k`, `MemRead(cadd(ip, k), 1)`. -/
def fetchLiteral (k : Nat) (s : State) : Attempt (Cell × State) := do
  let a ← cadd s.ip (BitVec.ofNat 64 k)
  memRead a s

/-- The accesses of an instruction of one cell: its word (rule R54). -/
def fetch0 (s : State) : Attempt State := do
  let (_, s0) ← fetchWord s
  .ok s0

/-- The word and one literal (rules R54, R123). -/
def fetch1 (s : State) : Attempt (Cell × State) := do
  let s0 ← fetch0 s
  fetchLiteral 1 s0

/-- The word and two literals, in ascending order. -/
def fetch2 (s : State) : Attempt (Cell × Cell × State) := do
  let (l1, s1) ← fetch1 s
  let (l2, s2) ← fetchLiteral 2 s1
  .ok (l1, l2, s2)

/-- The word and three literals, in ascending order. -/
def fetch3 (s : State) : Attempt (Cell × Cell × Cell × State) := do
  let (l1, l2, s2) ← fetch2 s
  let (l3, s3) ← fetchLiteral 3 s2
  .ok (l1, l2, l3, s3)

/-- Rule R129: `val(k)`, the value of a source slot with mode `m` and literal `lit`. -/
def sourceValue (m : Mode) (lit : Cell) (s : State) : Attempt (Cell × State) :=
  match m with
  | .immediate => .ok (lit, s)
  | .position => memRead lit s
  | .relative => do
    let ea ← cadd s.rb lit
    memRead ea s

/-- Rule R130: `dst(k)`, the address of a write slot, checked and not read. -/
def targetAddress (m : Mode) (lit : Cell) (s : State) : Attempt Nat :=
  match m with
  | .immediate => .error Trap.immediateWrite
  | .position => checkAddress lit
  | .relative => do
    let ea ← cadd s.rb lit
    checkAddress ea

/-- One source slot (Write, RelativeBaseOffset): `val(1)`. -/
def operandsS (m1 : Mode) (s : State) : Attempt (Cell × State) := do
  let (l1, s1) ← fetch1 s
  sourceValue m1 l1 s1

/-- One write slot (Read): `dst(1)`. -/
def operandsT (m1 : Mode) (s : State) : Attempt (Nat × State) := do
  let (l1, s1) ← fetch1 s
  let d ← targetAddress m1 l1 s1
  .ok (d, s1)

/-- Two source slots (the jumps): `val(1)`, `val(2)`, both resolved whether or not both are used (rule R131). -/
def operandsSS (m1 m2 : Mode) (s : State) : Attempt (Cell × Cell × State) := do
  let (l1, l2, s2) ← fetch2 s
  let (a, sa) ← sourceValue m1 l1 s2
  let (b, sb) ← sourceValue m2 l2 sa
  .ok (a, b, sb)

/-- Two source slots and a write slot (Add, Multiply, LessThan, Equals): `val(1)`, `val(2)`, `dst(3)` (rule R131). -/
def operandsSST (m1 m2 m3 : Mode) (s : State) : Attempt (Cell × Cell × Nat × State) := do
  let (l1, l2, l3, s3) ← fetch3 s
  let (a, sa) ← sourceValue m1 l1 s3
  let (b, sb) ← sourceValue m2 l2 sa
  let d ← targetAddress m3 l3 sb
  .ok (a, b, d, sb)

/-- The execute phase shared by Add, Multiply, LessThan and Equals (rules R150, R160): compute the result from the two
source values, then the advance of 4, then store and move on. All reads precede the one write (rule R132). -/
def storeResult (f : Cell → Cell → Attempt Cell) (m1 m2 m3 : Mode) (s : State) : Attempt State := do
  let (a, b, d, s1) ← operandsSST m1 m2 m3 s
  let r ← f a b
  let nip ← advance 4 s1
  .ok ((s1.store d r).setIp nip)

/-- The execute phase shared by the two jumps (rule R180): a guard that holds sets `ip` to the target itself, and
otherwise `ip` advances by 3. -/
def jumpWhen (guard : Cell → Bool) (m1 m2 : Mode) (s : State) : Attempt State := do
  let (c, t, s1) ← operandsSS m1 m2 s
  if guard c then .ok (s1.setIp t)
  else do
    let nip ← advance 3 s1
    .ok (s1.setIp nip)

end Sys2Proof.Machine
end

