-- ==== Sys2Proof/Machine/AddMultiply.lean ====
section
/-! DEFINITION. Add and Multiply (spec/41_add_multiply.md). -/

namespace Sys2Proof.Machine

/-- Rule R151. -/
def execAdd (m1 m2 m3 : Mode) (s : State) : Host.Outcome State Fault Refusal :=
  commit s (storeResult cadd m1 m2 m3 s)

/-- Rule R152. -/
def execMultiply (m1 m2 m3 : Mode) (s : State) : Host.Outcome State Fault Refusal :=
  commit s (storeResult cmul m1 m2 m3 s)

end Sys2Proof.Machine
end

