-- ==== Sys2Proof/Machine/Halt.lean ====
section
/-! DEFINITION. Halt (spec/46_halt.md). -/

namespace Sys2Proof.Machine

/-- Rule R196: capture cell 0 as the halt value; `ip` keeps the address of the Halt word (decision D14 of the spec). -/
def execHalt (s : State) : Host.Outcome State Fault Refusal :=
  commit s do
    let s0 ← fetch0 s
    let (v, s1) ← memRead 0 s0
    .ok (s1.setStatus (.halted v))

end Sys2Proof.Machine
end

