-- ==== Sys2Proof/Machine/Jumps.lean ====
section
/-! DEFINITION. JumpIfTrue and JumpIfFalse (spec/44_jumps.md). -/

namespace Sys2Proof.Machine

/-- Rule R181: taken when the guard value is not 0. -/
def execJumpIfTrue (m1 m2 : Mode) (s : State) : Host.Outcome State Fault Refusal :=
  commit s (jumpWhen (fun c => isTrue c) m1 m2 s)

/-- Rule R182: taken when the guard value is 0. -/
def execJumpIfFalse (m1 m2 : Mode) (s : State) : Host.Outcome State Fault Refusal :=
  commit s (jumpWhen (fun c => !isTrue c) m1 m2 s)

end Sys2Proof.Machine
end

