-- ==== Sys2Proof/Machine/LessThanEquals.lean ====
section
/-! DEFINITION. LessThan and Equals (spec/42_lessthan_equals.md). -/

namespace Sys2Proof.Machine

/-- Rule R161. -/
def execLessThan (m1 m2 m3 : Mode) (s : State) : Host.Outcome State Fault Refusal :=
  commit s (storeResult (fun a b => .ok (lessCell a b)) m1 m2 m3 s)

/-- Rule R162. -/
def execEquals (m1 m2 m3 : Mode) (s : State) : Host.Outcome State Fault Refusal :=
  commit s (storeResult (fun a b => .ok (equalCell a b)) m1 m2 m3 s)

end Sys2Proof.Machine
end

