-- ==== Sys2Proof/Machine/ReadWrite.lean ====
section
/-! DEFINITION. Read and Write (spec/43_read_write.md). -/

namespace Sys2Proof.Machine

/-- Rule R171, the effects once every check has passed: advance first, then ask for input. Without input the target is
not written and does not grow memory. -/
def takeInput (d : Nat) (s : State) : State :=
  match tryRead s with
  | (some v, s1) => s1.store d v
  | (none, s1) => s1.setStatus .waitingOnInput

/-- Rule R171. -/
def execRead (m1 : Mode) (s : State) : Host.Outcome State Fault Refusal :=
  commit s do
    let (d, s1) ← operandsT m1 s
    let nip ← advance 2 s1
    .ok (takeInput d (s1.setIp nip))

/-- Rule R172. The run goes on: `SUSPEND_ON_OUTPUT` is false (rule R8). -/
def execWrite (m1 : Mode) (s : State) : Host.Outcome State Fault Refusal :=
  commit s do
    let (a, s1) ← operandsS m1 s
    let nip ← advance 2 s1
    .ok ((s1.emit a).setIp nip)

end Sys2Proof.Machine
end

