-- ==== Sys2Proof/Machine/RelativeBase.lean ====
section
/-! DEFINITION. RelativeBaseOffset (spec/45_relative_base_offset.md). -/

namespace Sys2Proof.Machine

/-- Rule R191: a Relative source uses the old `rb`, and the operation adds. -/
def execRelativeBaseOffset (m1 : Mode) (s : State) : Host.Outcome State Fault Refusal :=
  commit s do
    let (a, s1) ← operandsS m1 s
    let nrb ← cadd s1.rb a
    let nip ← advance 2 s1
    .ok ((s1.setRb nrb).setIp nip)

end Sys2Proof.Machine
end

