-- ==== Sys2Proof/Machine/Dispatch.lean ====
section
/-! DEFINITION. The execute phase, selected by the tag (rule R134): one arm per instruction. -/

namespace Sys2Proof.Machine

def exec (i : Instr) (s : State) : Host.Outcome State Fault Refusal :=
  match i with
  | .add m1 m2 m3 => Sys2Proof.Machine.execAdd m1 m2 m3 s
  | .multiply m1 m2 m3 => Sys2Proof.Machine.execMultiply m1 m2 m3 s
  | .read m1 => Sys2Proof.Machine.execRead m1 s
  | .write m1 => Sys2Proof.Machine.execWrite m1 s
  | .jumpIfTrue m1 m2 => Sys2Proof.Machine.execJumpIfTrue m1 m2 s
  | .jumpIfFalse m1 m2 => Sys2Proof.Machine.execJumpIfFalse m1 m2 s
  | .lessThan m1 m2 m3 => Sys2Proof.Machine.execLessThan m1 m2 m3 s
  | .equals m1 m2 m3 => Sys2Proof.Machine.execEquals m1 m2 m3 s
  | .relativeBaseOffset m1 => Sys2Proof.Machine.execRelativeBaseOffset m1 s
  | .halt => Sys2Proof.Machine.execHalt s

end Sys2Proof.Machine
end

