-- ==== Sys2Proof/WellFormed.lean ====
section
/-! DEFINITION. Which instructions are well formed: the legal modes of each slot (rule R91). -/

namespace Sys2Proof

/-- Rule R91: a write slot accepts Position and Relative only; a source slot accepts every mode. -/
def Mode.legalTarget : Mode → Bool
  | .position => true
  | .immediate => false
  | .relative => true

/-- Rule R91: every mode lies in the legal set of its slot. The write slot is slot 3 of Add, Multiply,
LessThan and Equals, and slot 1 of Read; the other instructions have none. -/
def Instr.wf : Instr → Bool
  | .add _ _ m3 => m3.legalTarget
  | .multiply _ _ m3 => m3.legalTarget
  | .read m1 => m1.legalTarget
  | .write _ => true
  | .jumpIfTrue _ _ => true
  | .jumpIfFalse _ _ => true
  | .lessThan _ _ m3 => m3.legalTarget
  | .equals _ _ m3 => m3.legalTarget
  | .relativeBaseOffset _ => true
  | .halt => true

end Sys2Proof
end

