-- ==== Sys2Proof/Decode.lean ====
section
/-! DEFINITION. The Instruction Decoder, a pure total function of one Cell (rules R80 to R92), and the encoder
(rule R94). The encoding is decimal: fields are decimal digits of the word, not bit fields (rule R81). -/

namespace Sys2Proof

/-- Rule R11: decimal digit `i` of `raw`, digit 0 being the units. -/
def digit (raw i : Nat) : Nat := raw / 10 ^ i % 10

/-- Rule R87: digit to mode. -/
def modeOfDigit : Nat → Option Mode
  | 0 => some .position
  | 1 => some .immediate
  | 2 => some .relative
  | _ => none

/-- Rule R94: mode to digit. -/
def Mode.digit : Mode → Nat
  | .position => 0
  | .immediate => 1
  | .relative => 2

/-- Rule R92 step 3 for a source slot: the mode digit of parameter `k` is decimal digit `k + 1` (rule R86). -/
def sourceMode (raw k : Nat) : Except DecodeError Mode :=
  match modeOfDigit (digit raw (k + 1)) with
  | some m => .ok m
  | none => .error (.badModeDigit k (digit raw (k + 1)))

/-- Rule R92 step 3 for a write slot: the digit first, then the legality of the mode (rule R91). -/
def targetMode (raw k : Nat) : Except DecodeError Mode := do
  let m ← sourceMode raw k
  if m.legalTarget then .ok m else .error (.modeNotLegalForSlot k m)

/-- Rules R88 and R92 step 4: the digits above the `n` mode digits must be 0. -/
def noExtraneous (raw n : Nat) (i : Instr) : Except DecodeError Instr :=
  if raw / 10 ^ (n + 2) = 0 then .ok i else .error .extraneousDigits

/-- Format F3 with a write slot 3 (rule R82). -/
def decodeF3 (raw : Nat) (mk : Mode → Mode → Mode → Instr) : Except DecodeError Instr := do
  let m1 ← sourceMode raw 1
  let m2 ← sourceMode raw 2
  let m3 ← targetMode raw 3
  noExtraneous raw 3 (mk m1 m2 m3)

/-- Format F2, two sources (rule R82). -/
def decodeF2 (raw : Nat) (mk : Mode → Mode → Instr) : Except DecodeError Instr := do
  let m1 ← sourceMode raw 1
  let m2 ← sourceMode raw 2
  noExtraneous raw 2 (mk m1 m2)

/-- Format F1 with a source slot (rule R82). -/
def decodeF1Source (raw : Nat) (mk : Mode → Instr) : Except DecodeError Instr := do
  let m1 ← sourceMode raw 1
  noExtraneous raw 1 (mk m1)

/-- Format F1 with a write slot, which only Read has (rules R82, R91). -/
def decodeF1Target (raw : Nat) (mk : Mode → Instr) : Except DecodeError Instr := do
  let m1 ← targetMode raw 1
  noExtraneous raw 1 (mk m1)

/-- Rule R92 steps 2 to 5, for a word inside the domain: the opcode is `raw mod 100` (rule R85), and the opcode
map is that of rule R90. -/
def decodeDigits (raw : Nat) : Except DecodeError Instr :=
  match raw % 100 with
  | 1 => decodeF3 raw .add
  | 2 => decodeF3 raw .multiply
  | 3 => decodeF1Target raw .read
  | 4 => decodeF1Source raw .write
  | 5 => decodeF2 raw .jumpIfTrue
  | 6 => decodeF2 raw .jumpIfFalse
  | 7 => decodeF3 raw .lessThan
  | 8 => decodeF3 raw .equals
  | 9 => decodeF1Source raw .relativeBaseOffset
  | 99 => noExtraneous raw 0 .halt
  | op => .error (.badOpcode op)

/-- Rule R92: the decoder. It is total: every Cell gives an instruction or one named error. -/
def decode (raw : Cell) : Except DecodeError Instr :=
  if raw.toInt < 1 ∨ Config.maxRaw < raw.toInt then .error .rawOutOfRange
  else decodeDigits raw.toInt.toNat

/-- The word's digits above the opcode: the sum of rule R94 over the modes, first mode at `10^p`. -/
def modeDigits : Nat → List Mode → Nat
  | _, [] => 0
  | p, m :: ms => m.digit * 10 ^ p + modeDigits (p + 1) ms

/-- Rule R94: `op(tag) + Σ digit(m_k) · 10^(k+1)`. -/
def encodeDigits (i : Instr) : Nat := i.opcode + modeDigits 2 i.modes

/-- Rule R94: the encoder, the instruction word as a Cell. -/
def encode (i : Instr) : Cell := BitVec.ofNat 64 (encodeDigits i)

/-- Rule R110: the assembled cells of an instruction: its word, then its literal words. -/
def assemble (i : Instr) (literals : List Cell) : List Cell := encode i :: literals

/-- The instruction the decoder reads from an instruction whose bits are `w`: the first cell is bits 63..0, and the bits
from `nbits` up are 0. The later cells are literal words, which no decoding looks at (rule R80). -/
def decodeTableWord (nbits w : Nat) : Option Instr :=
  match decode (BitVec.ofNat 64 (w % 2 ^ nbits)) with
  | .ok i => some i
  | .error _ => none

end Sys2Proof
end

