-- ==== Sys2Proof/Machine/Fetch.lean ====
section
/-! DEFINITION. The fetch and decode phase of a step (rules R121, R122), and placing an instruction where the next step
fetches it. -/

namespace Sys2Proof.Machine

/-- Rules R121 and R122: fetch the word at `ip` and decode it. A decode error raises `DecodeFault`, and no parameter word
has been read at that point. The growth of this fetch is committed by the instruction's own fetch (`fetch0`), which
makes the same access. -/
def fetchDecode (s : State) : Attempt Instr := do
  let (raw, _) ← fetchWord s
  match decode raw with
  | .ok i => .ok i
  | .error e => .error (Trap.decodeFault e)

/-- Writes cells at consecutive addresses from `a` up, in ascending order, those at or beyond the end of the address
space left out. -/
def placeCells : Nat → List Cell → State → State
  | _, [], s => s
  | a, c :: cs, s => if a < Config.memoryCells then placeCells (a + 1) cs (s.store a c) else s

/-- The cells of an instruction whose bits are `w`, bits from `nbits` up being 0: the word is bits 63..0, literal `k` is
bits 64·k+63..64·k, and four cells are the longest instruction (rule R80). -/
def tableCells (nbits w : Nat) : List Cell :=
  (List.range 4).map fun k => BitVec.ofNat 64 (w % 2 ^ nbits / 2 ^ (64 * k))

/-- Stores an instruction at `ip`, where the next step fetches it, in a machine made ready to step. Where `ip` is negative
there is no such place and nothing is stored. -/
def placeInstruction (s : State) (nbits w : Nat) : State :=
  let ready := s.setStatus .running
  if s.ip.toInt < 0 then ready else placeCells (cellAddress s.ip) (tableCells nbits w) ready

end Sys2Proof.Machine
end

