-- ==== Sys2Proof/Machine/Step.lean ====
section
/-! DEFINITION. One step (rule R120). -/

namespace Sys2Proof.Machine

/-- Rule R120: in status `running`, fetch, decode and execute one instruction, which commits whole or faults and commits
nothing. In every other status no step is taken. -/
def step (s : State) : Host.Outcome State Fault Refusal :=
  match s.status with
  | .running =>
    match fetchDecode s with
    | .ok i => exec i s
    | .error t => .next (raise t s)
  | .waitingOnInput => stopWaiting
  | .halted v => stopHalted v
  | .faulted r => stopFaulted r

/-- `s` with the instruction whose bits are `w` stored where `step` fetches next, and ready to step. -/
def State.withFetchWord (s : State) (nbits w : Nat) : State := placeInstruction s nbits w

end Sys2Proof.Machine
end

