-- ==== Sys2Proof/Machine/Run.lean ====
section
/-! DEFINITION. The host's operations on one Computer: load, run and what may be done between runs (rules R140 to
R147, R240 to R248). None of them is an instruction. -/

namespace Sys2Proof.Machine

/-- The image placed at consecutive addresses from `a` up (rule R59), a Cell 0 not being listed. -/
def imageFrom : Nat → List Cell → Memory
  | _, [] => []
  | a, v :: vs => if v = 0 then imageFrom (a + 1) vs else (a, v) :: imageFrom (a + 1) vs

/-- Rule R240: `load(IMAGE, io)`, the machine's only reset. The environment is not reset: it is what the host attaches
(rule R243). -/
def load (image : List Cell) (inq out : List Cell) : State where
  mem := imageFrom 0 image
  len := image.length
  ip := Config.resetIp
  rb := Config.resetRb
  status := .running
  inq := inq
  out := out

/-- Rules R140, R144 and R145: the entry of `run`. A halted or faulted machine is refused; any other is set `running`. It
does not check for input, and a Read that found none is not retried. -/
def enterRun (s : State) : Host.Outcome State Fault Refusal :=
  match s.status with
  | .running => .next (s.setStatus .running)
  | .waitingOnInput => .next (s.setStatus .running)
  | .halted v => .refused (.halted v)
  | .faulted r => .refused (.faulted r)

/-- Rules R140 and R141: the loop of `run`, which steps while the status is `running` and tests nothing else. The fuel is
the external step budget of rule R141 and no part of the machine: a state still `running` says only that it ran out. -/
def runLoop : Nat → State → Host.Outcome State Fault Refusal
  | 0, s => .next s
  | fuel + 1, s =>
    if s.status = .running then
      match step s with
      | .next t => runLoop fuel t
      | .fault r => .fault r
      | .refused r => .refused r
    else .next s

/-- Rule R140: `run` under a step budget. What it returns is the status of the state (rule R142). -/
def runFor (fuel : Nat) (s : State) : Host.Outcome State Fault Refusal :=
  match enterRun s with
  | .next t => runLoop fuel t
  | .fault r => .fault r
  | .refused r => .refused r

/-- Rules R225 and R248: between runs the host adds input at the end of the queue. -/
def State.supplyInput (s : State) (vs : List Cell) : State := { s with inq := s.inq ++ vs }

/-- Rules R225 and R248: between runs the host reads the output and clears it. -/
def State.takeOutput (s : State) : List Cell × State := (s.out, { s with out := [] })

/-- Rule R248: between runs the host detaches the I/O capability and attaches another. -/
def State.attachIo (s : State) (inq out : List Cell) : State := { s with inq := inq, out := out }

/-- Rules R247 and R248: between runs the host writes a memory cell, through the same accessor (rule R56). A negative
address does not exist (rule R58): nothing is written. -/
def State.patch (s : State) (a v : Cell) : State :=
  match memWrite a v s with
  | .ok t => t
  | .error _ => s

end Sys2Proof.Machine
end

