-- ==== Sys2Proof/Safety.lean ====
section
/-! DEFINITION. The terms in which statements speak: the operands of the instruction at `ip` read straight off the state,
the fault a step meets first (rule R207), the invariant of the state (rule R57), and what counts as a safe run.
Nothing here is used by the machine. Addresses are exact integers here, where the machine computes with checked Cells. -/

namespace Sys2Proof.Machine

/-- Rule R16: `lit_k`, the Cell at `ip + k`. -/
def State.literal (s : State) (k : Nat) : Cell := s.cell (cellAddress s.ip + k)

/-- Rules R127 and R128: the exact effective address of slot `k`, `lit` or `rb + lit`. -/
def operandAddress (m : Mode) (k : Nat) (s : State) : Int :=
  match m with
  | .position => (s.literal k).toInt
  | .immediate => (s.literal k).toInt
  | .relative => s.rb.toInt + (s.literal k).toInt

/-- Rule R133: the value of source slot `k`. -/
def sourceOf (m : Mode) (k : Nat) (s : State) : Cell :=
  match m with
  | .position => s.cell (operandAddress .position k s).toNat
  | .immediate => s.literal k
  | .relative => s.cell (operandAddress .relative k s).toNat

/-- Rule R133: the address of write slot `k`. -/
def targetOf (m : Mode) (k : Nat) (s : State) : Nat := (operandAddress m k s).toNat

/-- The instruction's word and its `n` literals lie at addresses that exist (rules R121, R123). -/
abbrev CodeOk (n : Nat) (s : State) : Prop := 0 ≤ s.ip.toInt ∧ s.ip.toInt + n ≤ cellMax

/-- Source slot `k` resolves without a fault (rule R133). -/
abbrev SourceOk (m : Mode) (k : Nat) (s : State) : Prop :=
  m = .immediate ∨ (0 ≤ operandAddress m k s ∧ operandAddress m k s ≤ cellMax)

/-- Write slot `k` resolves without a fault (rule R133). -/
abbrev TargetOk (m : Mode) (k : Nat) (s : State) : Prop :=
  m ≠ .immediate ∧ 0 ≤ operandAddress m k s ∧ operandAddress m k s ≤ cellMax

/-- The addresses of an instruction's word and of its `n` literals. -/
def codeCells (n : Nat) (s : State) : List Nat := (List.range (n + 1)).map (fun k => cellAddress s.ip + k)

/-- The addresses read to resolve source slot `k`: one, or none in Immediate mode (rule R54). -/
def sourceCells (m : Mode) (k : Nat) (s : State) : List Nat :=
  match m with
  | .position => [(operandAddress .position k s).toNat]
  | .immediate => []
  | .relative => [(operandAddress .relative k s).toNat]

/-- Rule R57: memory length after the accesses at the addresses listed. -/
def lenAfter (len : Nat) (touched : List Nat) : Nat := touched.foldl (fun l a => max l (a + 1)) len

/-- `s` after reads at the addresses listed: only the length can have grown. -/
def State.touch (s : State) (touched : List Nat) : State := { s with len := lenAfter s.len touched }

/-- Rule R207 (1) and (3): the fault in fetching the word and `n` literals. -/
def codeTrap (n : Nat) (s : State) : Option Trap :=
  if s.ip.toInt < 0 then some (Trap.negativeAddress s.ip)
  else if s.ip.toInt + n ≤ cellMax then none else some Trap.overflow

/-- Rule R207 (4): Overflow of the address first, then the negative address. -/
def addressTrap (ea : Int) : Option Trap :=
  if ¬ FitsCell ea then some Trap.overflow
  else if ea < 0 then some (Trap.negativeAddress (Cell.ofInt ea)) else none

/-- The fault in resolving source slot `k` (rule R129). -/
def sourceTrap (m : Mode) (k : Nat) (s : State) : Option Trap :=
  match m with
  | .position => addressTrap (operandAddress .position k s)
  | .immediate => none
  | .relative => addressTrap (operandAddress .relative k s)

/-- The fault in resolving write slot `k` (rule R130). -/
def targetTrap (m : Mode) (k : Nat) (s : State) : Option Trap :=
  match m with
  | .position => addressTrap (operandAddress .position k s)
  | .immediate => some Trap.immediateWrite
  | .relative => addressTrap (operandAddress .relative k s)

/-- Rule R207 (5) and (6): Overflow of an exact result. -/
def resultTrap (x : Int) : Option Trap := if FitsCell x then none else some Trap.overflow

/-- The first of the faults listed. -/
def firstTrap : List (Option Trap) → Option Trap
  | [] => none
  | some t :: _ => some t
  | none :: rest => firstTrap rest

/-- Rule R207: the fault that instruction `i` at `ip` meets first after its decoding, if it meets one. -/
def faultOf (i : Instr) (s : State) : Option Trap :=
  match i with
  | .add m1 m2 m3 => firstTrap [codeTrap 3 s, sourceTrap m1 1 s, sourceTrap m2 2 s, targetTrap m3 3 s,
      resultTrap ((sourceOf m1 1 s).toInt + (sourceOf m2 2 s).toInt), resultTrap (s.ip.toInt + 4)]
  | .multiply m1 m2 m3 => firstTrap [codeTrap 3 s, sourceTrap m1 1 s, sourceTrap m2 2 s, targetTrap m3 3 s,
      resultTrap ((sourceOf m1 1 s).toInt * (sourceOf m2 2 s).toInt), resultTrap (s.ip.toInt + 4)]
  | .read m1 => firstTrap [codeTrap 1 s, targetTrap m1 1 s, resultTrap (s.ip.toInt + 2)]
  | .write m1 => firstTrap [codeTrap 1 s, sourceTrap m1 1 s, resultTrap (s.ip.toInt + 2)]
  | .jumpIfTrue m1 m2 => firstTrap [codeTrap 2 s, sourceTrap m1 1 s, sourceTrap m2 2 s,
      if (sourceOf m1 1 s).toInt ≠ 0 then none else resultTrap (s.ip.toInt + 3)]
  | .jumpIfFalse m1 m2 => firstTrap [codeTrap 2 s, sourceTrap m1 1 s, sourceTrap m2 2 s,
      if (sourceOf m1 1 s).toInt = 0 then none else resultTrap (s.ip.toInt + 3)]
  | .lessThan m1 m2 m3 => firstTrap [codeTrap 3 s, sourceTrap m1 1 s, sourceTrap m2 2 s, targetTrap m3 3 s,
      resultTrap (s.ip.toInt + 4)]
  | .equals m1 m2 m3 => firstTrap [codeTrap 3 s, sourceTrap m1 1 s, sourceTrap m2 2 s, targetTrap m3 3 s,
      resultTrap (s.ip.toInt + 4)]
  | .relativeBaseOffset m1 => firstTrap [codeTrap 1 s, sourceTrap m1 1 s,
      resultTrap (s.rb.toInt + (sourceOf m1 1 s).toInt), resultTrap (s.ip.toInt + 2)]
  | .halt => firstTrap [codeTrap 0 s]

/-- Rule R207 for a whole step: the fetch, then the decoding, then the instruction. -/
def stepFault (s : State) : Option Trap :=
  if s.ip.toInt < 0 then some (Trap.negativeAddress s.ip)
  else
    match decode (s.cell (cellAddress s.ip)) with
    | .error e => some (Trap.decodeFault e)
    | .ok i => faultOf i s

/-- The state after a three-parameter instruction with result `v` (rules R150, R160). -/
def afterStore (m1 m2 m3 : Mode) (v : Cell) (s : State) : State :=
  { s with
    mem := Memory.write s.mem (targetOf m3 3 s) v
    len := lenAfter s.len (codeCells 3 s ++ sourceCells m1 1 s ++ sourceCells m2 2 s ++ [targetOf m3 3 s])
    ip := Cell.ofInt (s.ip.toInt + 4) }

/-- The state after a jump to `c` (rule R180). -/
def afterJump (m1 m2 : Mode) (c : Cell) (s : State) : State :=
  { s with
    len := lenAfter s.len (codeCells 2 s ++ sourceCells m1 1 s ++ sourceCells m2 2 s)
    ip := c }

/-- The state after an instruction that meets no fault, read straight off the state before it. -/
def effectOf (i : Instr) (s : State) : State :=
  match i with
  | .add m1 m2 m3 => afterStore m1 m2 m3 (Cell.ofInt ((sourceOf m1 1 s).toInt + (sourceOf m2 2 s).toInt)) s
  | .multiply m1 m2 m3 => afterStore m1 m2 m3 (Cell.ofInt ((sourceOf m1 1 s).toInt * (sourceOf m2 2 s).toInt)) s
  | .read m1 =>
    match s.inq with
    | [] => { s with
        len := lenAfter s.len (codeCells 1 s)
        ip := Cell.ofInt (s.ip.toInt + 2)
        status := .waitingOnInput }
    | v :: rest => { s with
        mem := Memory.write s.mem (targetOf m1 1 s) v
        len := lenAfter s.len (codeCells 1 s ++ [targetOf m1 1 s])
        ip := Cell.ofInt (s.ip.toInt + 2)
        inq := rest }
  | .write m1 => { s with
      len := lenAfter s.len (codeCells 1 s ++ sourceCells m1 1 s)
      ip := Cell.ofInt (s.ip.toInt + 2)
      out := s.out ++ [sourceOf m1 1 s] }
  | .jumpIfTrue m1 m2 => afterJump m1 m2
      (if (sourceOf m1 1 s).toInt ≠ 0 then sourceOf m2 2 s else Cell.ofInt (s.ip.toInt + 3)) s
  | .jumpIfFalse m1 m2 => afterJump m1 m2
      (if (sourceOf m1 1 s).toInt = 0 then sourceOf m2 2 s else Cell.ofInt (s.ip.toInt + 3)) s
  | .lessThan m1 m2 m3 => afterStore m1 m2 m3
      (if (sourceOf m1 1 s).toInt < (sourceOf m2 2 s).toInt then 1 else 0) s
  | .equals m1 m2 m3 => afterStore m1 m2 m3
      (if (sourceOf m1 1 s).toInt = (sourceOf m2 2 s).toInt then 1 else 0) s
  | .relativeBaseOffset m1 => { s with
      len := lenAfter s.len (codeCells 1 s ++ sourceCells m1 1 s)
      ip := Cell.ofInt (s.ip.toInt + 2)
      rb := Cell.ofInt (s.rb.toInt + (sourceOf m1 1 s).toInt) }
  | .halt => { s with
      len := lenAfter s.len (codeCells 0 s ++ [0])
      status := .halted (s.cell 0) }

/-- Rule R90: the arity of each recognised opcode. -/
def arityOfOpcode (op : Nat) : Option Nat :=
  if op ∈ [1, 2, 7, 8] then some 3
  else if op ∈ [5, 6] then some 2
  else if op ∈ [3, 4, 9] then some 1
  else if op = 99 then some 0
  else none

/-- Rule R90: the write slot of an opcode, if it has one. -/
def writeSlotOfOpcode (op : Nat) : Option Nat :=
  if op ∈ [1, 2, 7, 8] then some 3 else if op = 3 then some 1 else none

/-- Rule R83: the word is inside the decoder's domain. -/
abbrev RawInRange (raw : Cell) : Prop := 1 ≤ raw.toInt ∧ raw.toInt ≤ 99999

/-- Rule R93: the valid words of a three-parameter opcode, in the order of the table there. -/
def wordsF3 (op : Int) : List Int :=
  [op, op + 100, op + 200, op + 1000, op + 1100, op + 1200, op + 2000, op + 2100, op + 2200]
    ++ [op + 20000, op + 20100, op + 20200, op + 21000, op + 21100, op + 21200, op + 22000, op + 22100, op + 22200]

/-- Rule R93: the valid words of a two-parameter opcode. -/
def wordsF2 (op : Int) : List Int :=
  [op, op + 100, op + 200, op + 1000, op + 1100, op + 1200, op + 2000, op + 2100, op + 2200]

/-- Rule R93: the valid instruction words, complete. -/
def validWords : List Int :=
  wordsF3 1 ++ wordsF3 2 ++ [3, 203] ++ [4, 104, 204] ++ wordsF2 5 ++ wordsF2 6 ++ wordsF3 7 ++ wordsF3 8
    ++ [9, 109, 209] ++ [99]

/-- A state with its memory length forgotten (rule R36). -/
def State.forgetLen (s : State) : State := { s with len := 0 }

/-- An outcome with a change made to its next state. -/
def mapNext (f : State → State) : Host.Outcome State Fault Refusal → Host.Outcome State Fault Refusal
  | .next s => .next (f s)
  | .fault r => .fault r
  | .refused r => .refused r

/-- The status is a fault. -/
def Status.isFaulted : Status → Bool
  | .running => false
  | .waitingOnInput => false
  | .halted _ => false
  | .faulted _ => true

/-- The invariant of the state: memory is in canonical form, no Cell lies at or beyond `len` (rule R57 (a)), and `len` is
at most `CELL_MAX` + 1 (rule R57 (e)). -/
abbrev State.Inv (s : State) : Prop :=
  Memory.wf s.mem = true ∧ (∀ e ∈ s.mem, e.1 < s.len) ∧ s.len ≤ Config.memoryCells

/-- A run of `n` steps, each from a machine that is running. -/
inductive Steps : Nat → State → State → Prop where
  /-- No step. -/
  | none (s : State) : Steps 0 s s
  /-- One more step. -/
  | more {n : Nat} {s t u : State} (h : Steps n s t) (hs : step t = .next u) : Steps (n + 1) s u

/-- A safe run: whatever state it reaches, the machine has not faulted there. -/
def SafeRun (s : State) : Prop := ∀ n t, Steps n s t → t.status.isFaulted = false

end Sys2Proof.Machine
end

