-- ==== Sys2Proof/Certificates/Slice0/Obligations.lean ====
section
/-! DEFINITION. The statements for the provers. Each is about the machine over all states and operands; a docstring names
the rules it formalises, and says so where the point is the spec's own decision or derivation rather than its source's. -/

open Sys2Proof Sys2Proof.Machine

/-! Encoding. -/

/-- Rule R94 (which the spec marks as derived): decoding an encoded well-formed instruction gives it back. -/
def Obligations.DecodeOfEncode : Prop :=
  ∀ i : Instr, i.wf = true → decode (encode i) = .ok i

/-- Rule R94 (which the spec marks as derived): encoding a decoded word gives it back. The decoded instruction keeps every
write slot out of Immediate mode (rule R91; which modes its source slots take is the spec's decision D6). -/
def Obligations.EncodeOfDecode : Prop :=
  ∀ (raw : Cell) (i : Instr), decode raw = .ok i → encode i = raw ∧ i.wf = true

/-- Rule R81: a word is five decimal digits, the opcode in the low two and then the mode digits of parameters 1, 2 and 3; the
decoder reads the opcode and the modes there. -/
def Obligations.WordLayout : Prop :=
  (∀ raw : Cell, RawInRange raw →
    raw.toInt = ((raw.toInt.toNat % 100 : Nat) : Int) + 100 * (digit raw.toInt.toNat 2 : Int)
      + 1000 * (digit raw.toInt.toNat 3 : Int) + 10000 * (digit raw.toInt.toNat 4 : Int)) ∧
  (∀ (raw : Cell) (i : Instr), decode raw = .ok i →
    raw.toInt.toNat % 100 = i.opcode ∧
    ∀ (k : Nat) (m : Mode), i.modes[k]? = some m → digit raw.toInt.toNat (k + 2) = m.digit)

/-- Rules R101 and R102: which words are rejected for their range or for their opcode. -/
def Obligations.RangeAndOpcodeErrors : Prop :=
  (∀ raw : Cell, decode raw = .error .rawOutOfRange ↔ raw.toInt < 1 ∨ 99999 < raw.toInt) ∧
  (∀ (raw : Cell) (op : Nat), decode raw = .error (.badOpcode op) ↔
    RawInRange raw ∧ op = raw.toInt.toNat % 100 ∧ arityOfOpcode op = none)

/-- Rules R103, R104 and R105: which words are rejected for a mode digit, for a mode in a write slot, or for a digit
above the used ones. Which error is reported where several hold, and that a bad digit is reported for the lowest slot that
has one, is the spec's decision D7. -/
def Obligations.ModeAndDigitErrors : Prop :=
  (∀ (raw : Cell) (k d : Nat), decode raw = .error (.badModeDigit k d) ↔
    RawInRange raw ∧ ∃ n, arityOfOpcode (raw.toInt.toNat % 100) = some n ∧ 1 ≤ k ∧ k ≤ n ∧
      d = digit raw.toInt.toNat (k + 1) ∧ 2 < d ∧ ∀ j, 1 ≤ j → j < k → digit raw.toInt.toNat (j + 1) ≤ 2) ∧
  (∀ (raw : Cell) (k : Nat) (m : Mode), decode raw = .error (.modeNotLegalForSlot k m) ↔
    RawInRange raw ∧ ∃ n, arityOfOpcode (raw.toInt.toNat % 100) = some n ∧
      (∀ j, 1 ≤ j → j ≤ n → digit raw.toInt.toNat (j + 1) ≤ 2) ∧
      writeSlotOfOpcode (raw.toInt.toNat % 100) = some k ∧ digit raw.toInt.toNat (k + 1) = 1 ∧ m = .immediate) ∧
  (∀ raw : Cell, decode raw = .error .extraneousDigits ↔
    RawInRange raw ∧ ∃ n, arityOfOpcode (raw.toInt.toNat % 100) = some n ∧
      (∀ j, 1 ≤ j → j ≤ n → digit raw.toInt.toNat (j + 1) ≤ 2) ∧
      (∀ k, writeSlotOfOpcode (raw.toInt.toNat % 100) = some k → digit raw.toInt.toNat (k + 1) ≠ 1) ∧
      raw.toInt.toNat / 10 ^ (n + 2) ≠ 0)

/-- Rules R84 and R93 (which the spec marks as derived): the words that decode are the 99 of the table in rule R93. Which
number is which instruction is the spec's decision D1, and that a source slot takes every mode its decision D6. -/
def Obligations.ValidWordsComplete : Prop :=
  validWords.length = 99 ∧ validWords.Nodup ∧
    ∀ raw : Cell, (∃ i, decode raw = .ok i) ↔ raw.toInt ∈ validWords

/-- Rule R195: Halt alone has no parameters and is one cell long, and alone has a single valid word, 99; the words 199, 1099 and 10099 fail. -/
def Obligations.HaltHasOneWord : Prop :=
  (∀ raw : Cell, decode raw = .ok .halt ↔ raw = 99) ∧
  (∀ i : Instr, i.arity = 0 ↔ i = .halt) ∧ Instr.halt.size = 1 ∧
  (∀ i : Instr, i.wf = true → i ≠ .halt → ∃ j : Instr, j.wf = true ∧ j.opcode = i.opcode ∧ encode j ≠ encode i) ∧
  decode 199 = .error .extraneousDigits ∧ decode 1099 = .error .extraneousDigits ∧
  decode 10099 = .error .extraneousDigits

/-- Words written out from rule R93, one for each opcode (which number is which instruction is the spec's decision D1). -/
def Obligations.SampleWordsDecode : Prop :=
  decode 21101 = .ok (.add .immediate .immediate .relative) ∧
  decode 1102 = .ok (.multiply .immediate .immediate .position) ∧
  decode 203 = .ok (.read .relative) ∧
  decode 104 = .ok (.write .immediate) ∧
  decode 1205 = .ok (.jumpIfTrue .relative .immediate) ∧
  decode 1006 = .ok (.jumpIfFalse .position .immediate) ∧
  decode 22107 = .ok (.lessThan .immediate .relative .relative) ∧
  decode 20008 = .ok (.equals .position .position .relative) ∧
  decode 209 = .ok (.relativeBaseOffset .relative) ∧
  decode 99 = .ok .halt

/-! Arithmetic, memory and operands. -/

/-- Rule R14: `cadd` and `cmul` give the exact result where it is a Cell, and raise Overflow where it is not
(the trap is the spec's decision D5, the width its decision D4). -/
def Obligations.CheckedArithmetic : Prop :=
  (∀ a b r : Cell, cadd a b = .ok r ↔ r.toInt = a.toInt + b.toInt) ∧
  (∀ a b : Cell, cadd a b = .error Trap.overflow ↔ ¬ FitsCell (a.toInt + b.toInt)) ∧
  (∀ a b r : Cell, cmul a b = .ok r ↔ r.toInt = a.toInt * b.toInt) ∧
  (∀ a b : Cell, cmul a b = .error Trap.overflow ↔ ¬ FitsCell (a.toInt * b.toInt))

/-- Rule R55: the read accessor. A negative address faults; any other read gives the content, grows `len` to one past the
address if that is beyond, and has no other effect. A read at or beyond `len` gives 0. -/
def Obligations.ReadAccessor : Prop :=
  (∀ (a : Cell) (s : State), a.toInt < 0 → memRead a s = .error (Trap.negativeAddress a)) ∧
  (∀ (a : Cell) (s : State), 0 ≤ a.toInt →
    ∃ t, memRead a s = .ok (s.cell a.toInt.toNat, t) ∧
      t = { s with len := if s.len ≤ a.toInt.toNat then a.toInt.toNat + 1 else s.len } ∧
      memRead a t = .ok (s.cell a.toInt.toNat, t)) ∧
  (∀ (a : Cell) (s : State), s.Inv → 0 ≤ a.toInt → s.len ≤ a.toInt.toNat → s.cell a.toInt.toNat = 0)

/-- The write accessor of rule R56's pseudocode: a negative address faults; any other write stores the Cell there, changes no
other cell and no register, and grows `len` to one past the address if that is beyond. -/
def Obligations.WriteAccessor : Prop :=
  (∀ (a v : Cell) (s : State), a.toInt < 0 → memWrite a v s = .error (Trap.negativeAddress a)) ∧
  (∀ (a v : Cell) (s : State), 0 ≤ a.toInt →
    ∃ t, memWrite a v s = .ok t ∧ t.cell a.toInt.toNat = v ∧ (∀ b, b ≠ a.toInt.toNat → t.cell b = s.cell b) ∧
      t = { s with mem := t.mem, len := if s.len ≤ a.toInt.toNat then a.toInt.toNat + 1 else s.len })

/-- Canonical memories that read alike at every address are equal (the model's representation of rule R32, log entry 2). -/
def Obligations.MemoryFormIsCanonical : Prop :=
  ∀ s t : State, s.Inv → t.Inv → (∀ a, s.cell a = t.cell a) → s.mem = t.mem

/-- Rules R126, R127 and R133: what each addressing mode gives a source slot with literal `lit`, and what it gives a write
slot. Only the length can change: no mode modifies `rb`. That the sum `rb + lit` traps is the spec's decision D5. -/
def Obligations.AddressingModes : Prop :=
  ∀ (lit : Cell) (s : State),
    sourceValue .immediate lit s = .ok (lit, s) ∧
    (lit.toInt < 0 → sourceValue .position lit s = .error (Trap.negativeAddress lit) ∧
      targetAddress .position lit s = .error (Trap.negativeAddress lit)) ∧
    (0 ≤ lit.toInt → sourceValue .position lit s = .ok (s.cell lit.toInt.toNat, s.grow lit.toInt.toNat) ∧
      targetAddress .position lit s = .ok lit.toInt.toNat) ∧
    (¬ FitsCell (s.rb.toInt + lit.toInt) → sourceValue .relative lit s = .error Trap.overflow ∧
      targetAddress .relative lit s = .error Trap.overflow) ∧
    (∀ ea : Cell, ea.toInt = s.rb.toInt + lit.toInt → ea.toInt < 0 →
      sourceValue .relative lit s = .error (Trap.negativeAddress ea) ∧
      targetAddress .relative lit s = .error (Trap.negativeAddress ea)) ∧
    (∀ ea : Cell, ea.toInt = s.rb.toInt + lit.toInt → 0 ≤ ea.toInt →
      sourceValue .relative lit s = .ok (s.cell ea.toInt.toNat, s.grow ea.toInt.toNat) ∧
      targetAddress .relative lit s = .ok ea.toInt.toNat)

/-- Rule R203 and conflict C2: a write target in Immediate mode, which no word decodes to, takes
`AddressFault(ImmediateWrite)` in an instruction built by hand, once its earlier slots resolve (that the fault is a status
and changes nothing else is the spec's decisions D8 and D10). -/
def Obligations.HandBuiltImmediateWrite : Prop :=
  (∀ s : State, CodeOk 1 s → exec (.read .immediate) s = .next (raise Trap.immediateWrite s)) ∧
  (∀ (m1 m2 : Mode) (s : State), CodeOk 3 s → SourceOk m1 1 s → SourceOk m2 2 s →
    exec (.add m1 m2 .immediate) s = .next (raise Trap.immediateWrite s) ∧
    exec (.multiply m1 m2 .immediate) s = .next (raise Trap.immediateWrite s) ∧
    exec (.lessThan m1 m2 .immediate) s = .next (raise Trap.immediateWrite s) ∧
    exec (.equals m1 m2 .immediate) s = .next (raise Trap.immediateWrite s))

/-! The instructions: where each completes, and with what result. Every clause on the final state is given, so each of
these says the instruction's frame as well, for the states in which it completes. -/

/-- Add (the pseudocode of rule R151). -/
def Obligations.AddResult : Prop :=
  ∀ (m1 m2 m3 : Mode) (s : State), 0 ≤ s.ip.toInt → s.ip.toInt + 4 ≤ cellMax →
    SourceOk m1 1 s → SourceOk m2 2 s → TargetOk m3 3 s →
    FitsCell ((sourceOf m1 1 s).toInt + (sourceOf m2 2 s).toInt) →
    ∃ t, exec (.add m1 m2 m3) s = .next t ∧
      (t.cell (targetOf m3 3 s)).toInt = (sourceOf m1 1 s).toInt + (sourceOf m2 2 s).toInt ∧
      (∀ a, a ≠ targetOf m3 3 s → t.cell a = s.cell a) ∧
      t.ip.toInt = s.ip.toInt + 4 ∧
      t.len = lenAfter s.len (codeCells 3 s ++ sourceCells m1 1 s ++ sourceCells m2 2 s ++ [targetOf m3 3 s]) ∧
      t.rb = s.rb ∧ t.status = s.status ∧ t.inq = s.inq ∧ t.out = s.out

/-- Multiply (the pseudocode of rule R152). -/
def Obligations.MultiplyResult : Prop :=
  ∀ (m1 m2 m3 : Mode) (s : State), 0 ≤ s.ip.toInt → s.ip.toInt + 4 ≤ cellMax →
    SourceOk m1 1 s → SourceOk m2 2 s → TargetOk m3 3 s →
    FitsCell ((sourceOf m1 1 s).toInt * (sourceOf m2 2 s).toInt) →
    ∃ t, exec (.multiply m1 m2 m3) s = .next t ∧
      (t.cell (targetOf m3 3 s)).toInt = (sourceOf m1 1 s).toInt * (sourceOf m2 2 s).toInt ∧
      (∀ a, a ≠ targetOf m3 3 s → t.cell a = s.cell a) ∧
      t.ip.toInt = s.ip.toInt + 4 ∧
      t.len = lenAfter s.len (codeCells 3 s ++ sourceCells m1 1 s ++ sourceCells m2 2 s ++ [targetOf m3 3 s]) ∧
      t.rb = s.rb ∧ t.status = s.status ∧ t.inq = s.inq ∧ t.out = s.out

/-- LessThan (the pseudocode of rule R161): a signed strict comparison, whose result is exactly 1 or exactly 0. -/
def Obligations.LessThanResult : Prop :=
  ∀ (m1 m2 m3 : Mode) (s : State), 0 ≤ s.ip.toInt → s.ip.toInt + 4 ≤ cellMax →
    SourceOk m1 1 s → SourceOk m2 2 s → TargetOk m3 3 s →
    ∃ t, exec (.lessThan m1 m2 m3) s = .next t ∧
      ((sourceOf m1 1 s).toInt < (sourceOf m2 2 s).toInt → t.cell (targetOf m3 3 s) = 1) ∧
      (¬ (sourceOf m1 1 s).toInt < (sourceOf m2 2 s).toInt → t.cell (targetOf m3 3 s) = 0) ∧
      (∀ a, a ≠ targetOf m3 3 s → t.cell a = s.cell a) ∧
      t.ip.toInt = s.ip.toInt + 4 ∧
      t.len = lenAfter s.len (codeCells 3 s ++ sourceCells m1 1 s ++ sourceCells m2 2 s ++ [targetOf m3 3 s]) ∧
      t.rb = s.rb ∧ t.status = s.status ∧ t.inq = s.inq ∧ t.out = s.out

/-- Equals (the pseudocode of rule R162): equality of whole Cells, whose result is exactly 1 or exactly 0. -/
def Obligations.EqualsResult : Prop :=
  ∀ (m1 m2 m3 : Mode) (s : State), 0 ≤ s.ip.toInt → s.ip.toInt + 4 ≤ cellMax →
    SourceOk m1 1 s → SourceOk m2 2 s → TargetOk m3 3 s →
    ∃ t, exec (.equals m1 m2 m3) s = .next t ∧
      ((sourceOf m1 1 s).toInt = (sourceOf m2 2 s).toInt → t.cell (targetOf m3 3 s) = 1) ∧
      ((sourceOf m1 1 s).toInt ≠ (sourceOf m2 2 s).toInt → t.cell (targetOf m3 3 s) = 0) ∧
      (∀ a, a ≠ targetOf m3 3 s → t.cell a = s.cell a) ∧
      t.ip.toInt = s.ip.toInt + 4 ∧
      t.len = lenAfter s.len (codeCells 3 s ++ sourceCells m1 1 s ++ sourceCells m2 2 s ++ [targetOf m3 3 s]) ∧
      t.rb = s.rb ∧ t.status = s.status ∧ t.inq = s.inq ∧ t.out = s.out

/-- Read with a value available (the `Value` case of rule R171): one value leaves the queue and is stored, and the status
does not change. That the input is a queue taken from its front is the spec's decision D26. -/
def Obligations.ReadWithInput : Prop :=
  ∀ (m1 : Mode) (s : State) (v : Cell) (rest : List Cell), 0 ≤ s.ip.toInt → s.ip.toInt + 2 ≤ cellMax →
    TargetOk m1 1 s → s.inq = v :: rest →
    ∃ t, exec (.read m1) s = .next t ∧
      t.cell (targetOf m1 1 s) = v ∧
      (∀ a, a ≠ targetOf m1 1 s → t.cell a = s.cell a) ∧
      t.inq = rest ∧ t.ip.toInt = s.ip.toInt + 2 ∧
      t.len = lenAfter s.len (codeCells 1 s ++ [targetOf m1 1 s]) ∧
      t.rb = s.rb ∧ t.status = s.status ∧ t.out = s.out

/-- Rule R204: a Read that finds no input is no fault. It commits, `ip` moves past it, the status becomes
`waitingOnInput`, and nothing is stored. An empty queue is the environment's answer `Unavailable` (rule R225, log entry 3). -/
def Obligations.ReadWithoutInput : Prop :=
  ∀ (m1 : Mode) (s : State), 0 ≤ s.ip.toInt → s.ip.toInt + 2 ≤ cellMax → TargetOk m1 1 s → s.inq = [] →
    ∃ t, exec (.read m1) s = .next t ∧
      t.status = .waitingOnInput ∧ t.ip.toInt = s.ip.toInt + 2 ∧
      t = { s with len := lenAfter s.len (codeCells 1 s), ip := t.ip, status := .waitingOnInput }

/-- Write (the pseudocode of rule R172; that the status stays as it is follows the spec's decision D11). -/
def Obligations.WriteResult : Prop :=
  ∀ (m1 : Mode) (s : State), 0 ≤ s.ip.toInt → s.ip.toInt + 2 ≤ cellMax → SourceOk m1 1 s →
    ∃ t, exec (.write m1) s = .next t ∧
      t.out = s.out ++ [sourceOf m1 1 s] ∧ t.ip.toInt = s.ip.toInt + 2 ∧
      t = { s with len := lenAfter s.len (codeCells 1 s ++ sourceCells m1 1 s), ip := t.ip, out := t.out }

/-- JumpIfTrue (the pseudocode of rule R181; that every value but 0 is true is the spec's decision D2): taken and not
taken. Both slots are resolved either way. -/
def Obligations.JumpIfTrueResult : Prop :=
  ∀ (m1 m2 : Mode) (s : State), CodeOk 2 s → SourceOk m1 1 s → SourceOk m2 2 s →
    ((sourceOf m1 1 s).toInt ≠ 0 →
      exec (.jumpIfTrue m1 m2) s = .next { s with
        len := lenAfter s.len (codeCells 2 s ++ sourceCells m1 1 s ++ sourceCells m2 2 s)
        ip := sourceOf m2 2 s }) ∧
    ((sourceOf m1 1 s).toInt = 0 → s.ip.toInt + 3 ≤ cellMax →
      exec (.jumpIfTrue m1 m2) s = .next { s with
        len := lenAfter s.len (codeCells 2 s ++ sourceCells m1 1 s ++ sourceCells m2 2 s)
        ip := Cell.ofInt (s.ip.toInt + 3) })

/-- JumpIfFalse (the pseudocode of rule R182; that only 0 is false is the spec's decision D2): taken and not taken. -/
def Obligations.JumpIfFalseResult : Prop :=
  ∀ (m1 m2 : Mode) (s : State), CodeOk 2 s → SourceOk m1 1 s → SourceOk m2 2 s →
    ((sourceOf m1 1 s).toInt = 0 →
      exec (.jumpIfFalse m1 m2) s = .next { s with
        len := lenAfter s.len (codeCells 2 s ++ sourceCells m1 1 s ++ sourceCells m2 2 s)
        ip := sourceOf m2 2 s }) ∧
    ((sourceOf m1 1 s).toInt ≠ 0 → s.ip.toInt + 3 ≤ cellMax →
      exec (.jumpIfFalse m1 m2) s = .next { s with
        len := lenAfter s.len (codeCells 2 s ++ sourceCells m1 1 s ++ sourceCells m2 2 s)
        ip := Cell.ofInt (s.ip.toInt + 3) })

/-- RelativeBaseOffset (the pseudocode of rule R191): the value of slot 1, a Relative one being read at the old `rb`, is
added to `rb`. -/
def Obligations.RelativeBaseOffsetResult : Prop :=
  ∀ (m1 : Mode) (s : State), 0 ≤ s.ip.toInt → s.ip.toInt + 2 ≤ cellMax → SourceOk m1 1 s →
    FitsCell (s.rb.toInt + (sourceOf m1 1 s).toInt) →
    ∃ t, exec (.relativeBaseOffset m1) s = .next t ∧
      t.rb.toInt = s.rb.toInt + (sourceOf m1 1 s).toInt ∧ t.ip.toInt = s.ip.toInt + 2 ∧
      t = { s with len := lenAfter s.len (codeCells 1 s ++ sourceCells m1 1 s), ip := t.ip, rb := t.rb }

/-- Halt (the pseudocode of rule R196; that `ip` keeps its value is the spec's decision D14): cell 0 at that moment becomes
the halt value. -/
def Obligations.HaltResult : Prop :=
  ∀ s : State, 0 ≤ s.ip.toInt →
    exec .halt s = .next { s with len := lenAfter s.len (codeCells 0 s ++ [0]), status := .halted (s.cell 0) }

/-- Where Add, Multiply and RelativeBaseOffset trap: a result that is no Cell takes `ArithmeticFault(Overflow)` and nothing
else changes (rule R206; the trap is the spec's decision D5, the rest its decisions D8 and D10). -/
def Obligations.ResultOverflowTraps : Prop :=
  (∀ (m1 m2 m3 : Mode) (s : State), CodeOk 3 s → SourceOk m1 1 s → SourceOk m2 2 s → TargetOk m3 3 s →
    (¬ FitsCell ((sourceOf m1 1 s).toInt + (sourceOf m2 2 s).toInt) →
      exec (.add m1 m2 m3) s = .next (raise Trap.overflow s)) ∧
    (¬ FitsCell ((sourceOf m1 1 s).toInt * (sourceOf m2 2 s).toInt) →
      exec (.multiply m1 m2 m3) s = .next (raise Trap.overflow s))) ∧
  (∀ (m1 : Mode) (s : State), CodeOk 1 s → SourceOk m1 1 s →
    ¬ FitsCell (s.rb.toInt + (sourceOf m1 1 s).toInt) →
      exec (.relativeBaseOffset m1) s = .next (raise Trap.overflow s))

/-- A jump that is not taken still resolves its target, so a target operand at a negative address faults (rule R131; the
spec's decision D21). The guard is slot 1 in Immediate mode here. -/
def Obligations.UntakenJumpResolvesTarget : Prop :=
  ∀ s : State, CodeOk 2 s → (s.literal 2).toInt < 0 →
    ((s.literal 1).toInt = 0 →
      exec (.jumpIfTrue .immediate .position) s = .next (raise (Trap.negativeAddress (s.literal 2)) s)) ∧
    ((s.literal 1).toInt ≠ 0 →
      exec (.jumpIfFalse .immediate .position) s = .next (raise (Trap.negativeAddress (s.literal 2)) s))

/-! Frames: what an instruction leaves alone, whenever it answers a next state, a fault taken among them. -/

/-- Add, Multiply, LessThan and Equals (rules R150, R160, R54): `rb` and the environment are unchanged, and so is every cell
but the one at the address their write slot resolves to. `len` only grows. The status is unchanged, or is a fault with
`ip` unchanged too. -/
def Obligations.ThreeParameterFrame : Prop :=
  ∀ (m1 m2 m3 : Mode) (i : Instr) (s t : State),
    (i = .add m1 m2 m3 ∨ i = .multiply m1 m2 m3 ∨ i = .lessThan m1 m2 m3 ∨ i = .equals m1 m2 m3) →
    exec i s = .next t →
    t.rb = s.rb ∧ t.inq = s.inq ∧ t.out = s.out ∧ s.len ≤ t.len ∧
    (t.status = s.status ∨ ∃ r, t = { s with status := .faulted r }) ∧
    (∀ d, targetAddress m3 (s.literal 3) s = .ok d → ∀ a, a ≠ d → t.cell a = s.cell a) ∧
    (∀ e, targetAddress m3 (s.literal 3) s = .error e → ∀ a, t.cell a = s.cell a)

/-- Read (rules R171, R34): `rb` and the output are unchanged, and so is every cell but the one at the address slot 1
resolves to, and that one too when there is no input. `len` only grows. -/
def Obligations.ReadFrame : Prop :=
  ∀ (m1 : Mode) (s t : State), exec (.read m1) s = .next t →
    t.rb = s.rb ∧ t.out = s.out ∧ s.len ≤ t.len ∧
    (t.status = s.status ∨ (t.status = .waitingOnInput ∧ s.inq = [] ∧ t.mem = s.mem)
      ∨ ∃ r, t = { s with status := .faulted r }) ∧
    (∀ d, targetAddress m1 (s.literal 1) s = .ok d → ∀ a, a ≠ d → t.cell a = s.cell a) ∧
    (∀ e, targetAddress m1 (s.literal 1) s = .error e → ∀ a, t.cell a = s.cell a) ∧
    (s.inq = [] → ∀ a, t.cell a = s.cell a)

/-- Write, JumpIfTrue, JumpIfFalse, RelativeBaseOffset and Halt (rule R34): they write no cell and consume no input. Write
alone of them emits, RelativeBaseOffset alone changes `rb`, Halt alone changes the status without a fault, and Halt
leaves `ip` alone. -/
def Obligations.NoStoreFrame : Prop :=
  ∀ (i : Instr) (s t : State), exec i s = .next t →
    ((∃ m, i = .write m) ∨ (∃ m1 m2, i = .jumpIfTrue m1 m2) ∨ (∃ m1 m2, i = .jumpIfFalse m1 m2)
      ∨ (∃ m, i = .relativeBaseOffset m) ∨ i = .halt) →
    (∀ a, t.cell a = s.cell a) ∧ t.mem = s.mem ∧ t.inq = s.inq ∧ s.len ≤ t.len ∧
    ((∀ m, i ≠ .write m) → t.out = s.out) ∧
    ((∀ m, i ≠ .relativeBaseOffset m) → t.rb = s.rb) ∧
    (i ≠ .halt → t.status = s.status ∨ ∃ r, t = { s with status := .faulted r }) ∧
    (i = .halt → t.ip = s.ip)

/-! The step and its faults. -/

/-- Rules R120 and R134: in status `running`, when the word at `ip` decodes to `i`, the step is the execution of `i` at that
same state; the step adds nothing around it. The decoded instruction is well formed. -/
def Obligations.StepRunsDecodedInstruction : Prop :=
  ∀ (s : State) (i : Instr), s.status = .running → 0 ≤ s.ip.toInt → decode (s.cell s.ip.toInt.toNat) = .ok i →
    step s = exec i s ∧ i.wf = true

/-- Rule R122: a word that does not decode takes `DecodeFault` with that word and its address, and nothing else changes: no
parameter word has been read. That the fault is a status and changes nothing else is the spec's decisions D8 and D10. -/
def Obligations.DecodeFaultTaken : Prop :=
  ∀ (s : State) (e : DecodeError), s.status = .running → 0 ≤ s.ip.toInt →
    decode (s.cell s.ip.toInt.toNat) = .error e →
    step s = .next { s with status := .faulted (FaultRecord.mk (.decodeFault e) s.ip (some (s.cell s.ip.toInt.toNat)) none) }

/-- A fetch at a negative `ip` takes `AddressFault` with the word absent; a fetch at or beyond `len` reads 0 and takes
`DecodeFault(RawOutOfRange)`, and the growth is not committed (rules R121, R253; the spec's decisions D10 and D13). -/
def Obligations.FetchOutsideProgram : Prop :=
  (∀ s : State, s.status = .running → s.ip.toInt < 0 →
    step s = .next { s with status := .faulted (FaultRecord.mk .negativeAddress s.ip none (some s.ip)) }) ∧
  (∀ s : State, s.Inv → s.status = .running → 0 ≤ s.ip.toInt → s.len ≤ s.ip.toInt.toNat →
    step s = .next { s with status := .faulted (FaultRecord.mk (.decodeFault .rawOutOfRange) s.ip (some 0) none) })

/-- Rule R207 and the pseudocode of rule R120: the machine, which threads checked Cells and growing states through the phases, is
the machine read straight off the state: the first fault in the fixed order is taken, and without one the effect happens
whole. It rests on the spec's decisions D7 and D21 for the order, D5 for Overflow, D8 and D10 for what a fault does and leaves,
and D2, D11, D12, D13, D14 and D26 for the effects. -/
def Obligations.ExecRefinesEffect : Prop :=
  ∀ (i : Instr) (s : State),
    (∀ t, faultOf i s = some t → exec i s = .next (raise t s)) ∧
    (faultOf i s = none → exec i s = .next (effectOf i s))

/-- The same for a whole step, with the fetch and the decoding in front (rule R207). It rests on the spec's decisions D7 and D21
for the order, D1 and D6 for which words decode, D5 for Overflow, D8 and D10 for what a fault does and leaves, and D2, D11,
D12, D13, D14 and D26 for the effects. -/
def Obligations.StepTakesFirstFault : Prop :=
  ∀ s : State, s.status = .running →
    (∀ t, stepFault s = some t → step s = .next (raise t s)) ∧
    (stepFault s = none → ∃ i, decode (s.cell s.ip.toInt.toNat) = .ok i ∧ step s = .next (effectOf i s))

/-- Rules R210 and R136 (the spec's decision D10): a step that faults commits nothing, and its record names the address of the
instruction and the word there. -/
def Obligations.FaultsArePrecise : Prop :=
  ∀ (s t : State) (r : FaultRecord), step s = .next t → t.status = .faulted r →
    t = { s with status := .faulted r } ∧ r.faultIp = s.ip ∧
    r.faultRaw = (if s.ip.toInt < 0 then none else some (s.cell s.ip.toInt.toNat))

/-- What a fault record can hold after a step: `ImmediateWrite` never (rule R203, conflict C2), an address just for a negative
address, which is then negative, and no word only when the fetch faulted (rule R28; the spec's decision D10). -/
def Obligations.FaultRecordFields : Prop :=
  ∀ (s t : State) (r : FaultRecord), step s = .next t → t.status = .faulted r →
    r.cause ≠ .immediateWrite ∧
    (r.cause = .negativeAddress ↔ ∃ a : Cell, r.faultAddr = some a ∧ a.toInt < 0) ∧
    (r.cause ≠ .negativeAddress → r.faultAddr = none) ∧
    (r.faultRaw = none → r.cause = .negativeAddress ∧ r.faultAddr = some s.ip)

/-- Every instruction, hand-built ones too, answers a next state: no arm faults or refuses. A fault of the machine is a next
state (the spec's decision D8). -/
def Obligations.EveryInstructionAnswers : Prop :=
  ∀ (i : Instr) (s : State), ∃ t, exec i s = .next t

/-! The execution-state machine. -/

/-- Rule R211: `Faulted` is absorbing. No step is taken in it, `run` is refused, and what else the host may do between runs
leaves it; only `load` makes a new machine. -/
def Obligations.FaultedIsAbsorbing : Prop :=
  ∀ (s : State) (r : FaultRecord), s.status = .faulted r →
    (∀ t, step s ≠ .next t) ∧ (∀ t, enterRun s ≠ .next t) ∧ enterRun s = .refused (.faulted r) ∧
    (∀ a v : Cell, (s.patch a v).status = .faulted r) ∧ (∀ vs : List Cell, (s.supplyInput vs).status = .faulted r) ∧
    (∀ inq out : List Cell, (s.attachIo inq out).status = .faulted r) ∧ s.takeOutput.2.status = .faulted r

/-- Rule R27: the halt value is the content of cell 0 at the halt, and nothing changes it after. No step is taken, and a host
write, added input, re-attached queues and taken output leave the status alone. That `run` is refused is rule R145 and the
spec's decision D15; that the host may write then is its decision D24. -/
def Obligations.HaltValueIsCellZero : Prop :=
  ∀ (s t : State) (v : Cell), step s = .next t → t.status = .halted v →
    v = s.cell 0 ∧ t.cell 0 = v ∧ (∀ u, step t ≠ .next u) ∧ enterRun t = .refused (.halted v) ∧
    (∀ a w : Cell, (t.patch a w).status = .halted v) ∧ (∀ vs : List Cell, (t.supplyInput vs).status = .halted v) ∧
    (∀ inq out : List Cell, (t.attachIo inq out).status = .halted v) ∧ t.takeOutput.2.status = .halted v

/-- Rule R232: the wait state is entered only by a Read that finds no input. While it lasts no step is taken; no arrival of
input ends it, added to the queue or by another environment attached, and neither does a host write or taken output; only
`run` does, which looks for no input and changes nothing else. -/
def Obligations.WaitStateOnlyRunWakes : Prop :=
  (∀ s t : State, step s = .next t → t.status = .waitingOnInput →
    s.inq = [] ∧ ∃ m, decode (s.cell s.ip.toInt.toNat) = .ok (.read m)) ∧
  (∀ s : State, s.status = .waitingOnInput →
    (∀ t, step s ≠ .next t) ∧
    (∀ vs : List Cell, (s.supplyInput vs).status = .waitingOnInput ∧ ∀ t, step (s.supplyInput vs) ≠ .next t) ∧
    (∀ inq out : List Cell, (s.attachIo inq out).status = .waitingOnInput ∧ ∀ t, step (s.attachIo inq out) ≠ .next t) ∧
    (∀ a v : Cell, (s.patch a v).status = .waitingOnInput ∧ ∀ t, step (s.patch a v) ≠ .next t) ∧
    (s.takeOutput.2.status = .waitingOnInput ∧ ∀ t, step s.takeOutput.2 ≠ .next t) ∧
    enterRun s = .next { s with status := .running })

/-- Rule R144: after a Read that found no input, `run` goes on at the instruction after it, whether or not input was supplied
meanwhile, and the target of that Read keeps its content. -/
def Obligations.ResumePastRead : Prop :=
  ∀ (m : Mode) (s : State), s.status = .running → 0 ≤ s.ip.toInt → s.ip.toInt + 2 ≤ cellMax →
    decode (s.cell s.ip.toInt.toNat) = .ok (.read m) → TargetOk m 1 s → s.inq = [] →
    ∃ t, step s = .next t ∧ t.status = .waitingOnInput ∧ t.ip.toInt = s.ip.toInt + 2 ∧ t.mem = s.mem ∧
      ∀ vs : List Cell, enterRun (t.supplyInput vs) = .next { t with status := .running, inq := vs }

/-- The transitions of the status (the rows of rule R143's table that are steps): a step starts only in `running`, and where it
leads says which instruction it was. The fault row is the spec's decisions D8 and D10, Halt's `ip` its decision D14. -/
def Obligations.StatusTransitions : Prop :=
  ∀ s t : State, step s = .next t →
    s.status = .running ∧
    ((t.status = .running ∧ ∃ i, decode (s.cell s.ip.toInt.toNat) = .ok i ∧ i ≠ .halt)
      ∨ (t.status = .waitingOnInput ∧ s.inq = [] ∧ t.mem = s.mem ∧ t.ip.toInt = s.ip.toInt + 2 ∧
          ∃ m, decode (s.cell s.ip.toInt.toNat) = .ok (.read m))
      ∨ (t.status = .halted (s.cell 0) ∧ t.ip = s.ip ∧ decode (s.cell s.ip.toInt.toNat) = .ok .halt)
      ∨ ∃ r, t = { s with status := .faulted r })

/-- Rules R140 and R141, under a step budget that is the model's (log entry 8): a run that has ended under one step budget ends the same under every larger one. -/
def Obligations.RunBudgetIrrelevant : Prop :=
  ∀ (n k : Nat) (s t : State), runFor n s = .next t → t.status ≠ .running → runFor (n + k) s = .next t

/-! Whole-machine rules. -/

/-- Rule R190: RelativeBaseOffset is the only instruction that writes `rb`; it is two cells long, advances by 2, and has the
three valid words 9, 109 and 209. `rb` is used only to compute addresses for Relative-mode parameters: for an instruction
without one, RelativeBaseOffset apart, another `rb` makes no other difference. -/
def Obligations.OnlyRelativeBaseOffsetWritesRb : Prop :=
  (∀ (i : Instr) (s t : State), exec i s = .next t → t.rb ≠ s.rb → ∃ m, i = .relativeBaseOffset m) ∧
  (∀ (i : Instr) (s : State) (c : Cell), Mode.relative ∉ i.modes → (∀ m, i ≠ .relativeBaseOffset m) →
    exec i { s with rb := c } = mapNext (fun t => { t with rb := c }) (exec i s)) ∧
  (∀ (m : Mode) (s t : State), exec (.relativeBaseOffset m) s = .next t →
    t.ip.toInt = s.ip.toInt + 2 ∨ ∃ r, t = { s with status := .faulted r }) ∧
  (∀ m : Mode, (Instr.relativeBaseOffset m).size = 2) ∧
  (∀ raw : Cell, (∃ m, decode raw = .ok (.relativeBaseOffset m)) ↔ raw = 9 ∨ raw = 109 ∨ raw = 209)

/-- Rule R170 and rule R173: Read alone consumes input, one value from the front, and Write alone emits, one value at the
end (that the input is a queue is the spec's decision D26). -/
def Obligations.OnlyReadAndWriteDoInputOutput : Prop :=
  ∀ (i : Instr) (s t : State), exec i s = .next t →
    (t.inq = s.inq ∨ ∃ m v, i = .read m ∧ s.inq = v :: t.inq) ∧
    (t.out = s.out ∨ ∃ m v, i = .write m ∧ t.out = s.out ++ [v])

/-- Rule R22 (Halt's case is the spec's decision D14): `ip` changes in one of three ways: by the size of the instruction, to the
resolved second parameter of a taken jump, or, for Halt and a fault, not at all. -/
def Obligations.IpChangesInThreeWays : Prop :=
  ∀ (i : Instr) (s t : State), exec i s = .next t →
    (∃ r, t = { s with status := .faulted r }) ∨
    (i ≠ .halt ∧ t.ip.toInt = s.ip.toInt + i.size) ∨
    (∃ m1 m2, ((i = .jumpIfTrue m1 m2 ∧ (sourceOf m1 1 s).toInt ≠ 0)
        ∨ (i = .jumpIfFalse m1 m2 ∧ (sourceOf m1 1 s).toInt = 0)) ∧ t.ip = sourceOf m2 2 s) ∨
    (i = .halt ∧ t.ip = s.ip)

/-- Rule R36 (which the spec marks as derived): no program can observe the memory length. From states that differ in it alone,
steps give states that differ in it alone. -/
def Obligations.LengthIsInvisible : Prop :=
  ∀ (s : State) (n : Nat),
    mapNext State.forgetLen (step { s with len := n }) = mapNext State.forgetLen (step s)

/-- Rules R170 and R223: what input is queued is visible to Read alone. -/
def Obligations.InputVisibleOnlyToRead : Prop :=
  ∀ (i : Instr) (s : State) (q : List Cell), (∀ m, i ≠ .read m) →
    exec i { s with inq := q } = mapNext (fun t => { t with inq := q }) (exec i s)

/-- Output is write-only: what has been emitted is visible to no instruction (rule R224). -/
def Obligations.OutputVisibleToNone : Prop :=
  ∀ (i : Instr) (s : State) (q : List Cell),
    exec i { s with out := q ++ s.out } = mapNext (fun t => { t with out := q ++ t.out }) (exec i s)

/-! Reset and the invariant. -/

/-- Rule R40 and rule R240: what `load` leaves (that `ip` is 0 is the spec's decision D3). `State.reset` is the load of the empty
image with empty queues, which is the model's choice (log entry 4). -/
def Obligations.LoadLeavesResetState : Prop :=
  (∀ (image inq out : List Cell),
    (∀ k, (load image inq out).cell k = image.getD k 0) ∧ (load image inq out).len = image.length ∧
    (load image inq out).ip = 0 ∧ (load image inq out).rb = 0 ∧ (load image inq out).status = .running ∧
    (load image inq out).inq = inq ∧ (load image inq out).out = out) ∧
  State.reset = load [] [] []

/-- The invariant holds at reset, and after a load of any image that fits the address space (rules R40, R57 (a)). -/
def Obligations.LoadMeetsInvariant : Prop :=
  State.reset.Inv ∧
    ∀ (image inq out : List Cell), image.length ≤ Config.memoryCells → (load image inq out).Inv

/-- Rule R57: every step keeps the invariant, from every state that meets it: memory stays canonical, no cell lies at or beyond
`len`, and `len` stays within the address space (the spec's decision D16). The list form is log entry 2. -/
def Obligations.StepKeepsInvariant : Prop :=
  ∀ s t : State, s.Inv → step s = .next t → t.Inv

/-- Rule R57 (c): memory grows monotonically. No run lowers `len`, and a run keeps the invariant. -/
def Obligations.RunsGrowMemory : Prop :=
  ∀ (n : Nat) (s t : State), Steps n s t → s.len ≤ t.len ∧ (s.Inv → t.Inv)

/-- The host's writes, input and run entry keep the invariant (rules R247, R248; the spec's decision D24). -/
def Obligations.HostActionsKeepInvariant : Prop :=
  ∀ s : State, s.Inv →
    (∀ a v : Cell, (s.patch a v).Inv) ∧ (∀ vs : List Cell, (s.supplyInput vs).Inv) ∧
    (∀ t, enterRun s = .next t → t.Inv)
end

