-- ==== Sys2Proof/Laws/State.lean ====
section
/-! SUPPORT. One lemma per field per state update, so that no later proof unfolds a record update. -/

namespace Sys2Proof.Machine

@[simp] theorem State.grow_mem (s : State) (a : Nat) : (s.grow a).mem = s.mem := rfl
@[simp] theorem State.grow_len (s : State) (a : Nat) : (s.grow a).len = max s.len (a + 1) := rfl
@[simp] theorem State.grow_ip (s : State) (a : Nat) : (s.grow a).ip = s.ip := rfl
@[simp] theorem State.grow_rb (s : State) (a : Nat) : (s.grow a).rb = s.rb := rfl
@[simp] theorem State.grow_status (s : State) (a : Nat) : (s.grow a).status = s.status := rfl
@[simp] theorem State.grow_inq (s : State) (a : Nat) : (s.grow a).inq = s.inq := rfl
@[simp] theorem State.grow_out (s : State) (a : Nat) : (s.grow a).out = s.out := rfl
@[simp] theorem State.grow_cell (s : State) (a b : Nat) : (s.grow a).cell b = s.cell b := rfl

@[simp] theorem State.store_mem (s : State) (a : Nat) (v : Cell) : (s.store a v).mem = Memory.write s.mem a v := rfl
@[simp] theorem State.store_len (s : State) (a : Nat) (v : Cell) : (s.store a v).len = max s.len (a + 1) := rfl
@[simp] theorem State.store_ip (s : State) (a : Nat) (v : Cell) : (s.store a v).ip = s.ip := rfl
@[simp] theorem State.store_rb (s : State) (a : Nat) (v : Cell) : (s.store a v).rb = s.rb := rfl
@[simp] theorem State.store_status (s : State) (a : Nat) (v : Cell) : (s.store a v).status = s.status := rfl
@[simp] theorem State.store_inq (s : State) (a : Nat) (v : Cell) : (s.store a v).inq = s.inq := rfl
@[simp] theorem State.store_out (s : State) (a : Nat) (v : Cell) : (s.store a v).out = s.out := rfl

@[simp] theorem State.setIp_mem (s : State) (c : Cell) : (s.setIp c).mem = s.mem := rfl
@[simp] theorem State.setIp_len (s : State) (c : Cell) : (s.setIp c).len = s.len := rfl
@[simp] theorem State.setIp_ip (s : State) (c : Cell) : (s.setIp c).ip = c := rfl
@[simp] theorem State.setIp_rb (s : State) (c : Cell) : (s.setIp c).rb = s.rb := rfl
@[simp] theorem State.setIp_status (s : State) (c : Cell) : (s.setIp c).status = s.status := rfl
@[simp] theorem State.setIp_inq (s : State) (c : Cell) : (s.setIp c).inq = s.inq := rfl
@[simp] theorem State.setIp_out (s : State) (c : Cell) : (s.setIp c).out = s.out := rfl
@[simp] theorem State.setIp_cell (s : State) (c : Cell) (a : Nat) : (s.setIp c).cell a = s.cell a := rfl

@[simp] theorem State.setRb_mem (s : State) (c : Cell) : (s.setRb c).mem = s.mem := rfl
@[simp] theorem State.setRb_len (s : State) (c : Cell) : (s.setRb c).len = s.len := rfl
@[simp] theorem State.setRb_ip (s : State) (c : Cell) : (s.setRb c).ip = s.ip := rfl
@[simp] theorem State.setRb_rb (s : State) (c : Cell) : (s.setRb c).rb = c := rfl
@[simp] theorem State.setRb_status (s : State) (c : Cell) : (s.setRb c).status = s.status := rfl
@[simp] theorem State.setRb_inq (s : State) (c : Cell) : (s.setRb c).inq = s.inq := rfl
@[simp] theorem State.setRb_out (s : State) (c : Cell) : (s.setRb c).out = s.out := rfl
@[simp] theorem State.setRb_cell (s : State) (c : Cell) (a : Nat) : (s.setRb c).cell a = s.cell a := rfl

@[simp] theorem State.setStatus_mem (s : State) (c : Status) : (s.setStatus c).mem = s.mem := rfl
@[simp] theorem State.setStatus_len (s : State) (c : Status) : (s.setStatus c).len = s.len := rfl
@[simp] theorem State.setStatus_ip (s : State) (c : Status) : (s.setStatus c).ip = s.ip := rfl
@[simp] theorem State.setStatus_rb (s : State) (c : Status) : (s.setStatus c).rb = s.rb := rfl
@[simp] theorem State.setStatus_status (s : State) (c : Status) : (s.setStatus c).status = c := rfl
@[simp] theorem State.setStatus_inq (s : State) (c : Status) : (s.setStatus c).inq = s.inq := rfl
@[simp] theorem State.setStatus_out (s : State) (c : Status) : (s.setStatus c).out = s.out := rfl
@[simp] theorem State.setStatus_cell (s : State) (c : Status) (a : Nat) : (s.setStatus c).cell a = s.cell a := rfl

@[simp] theorem State.emit_mem (s : State) (v : Cell) : (s.emit v).mem = s.mem := rfl
@[simp] theorem State.emit_len (s : State) (v : Cell) : (s.emit v).len = s.len := rfl
@[simp] theorem State.emit_ip (s : State) (v : Cell) : (s.emit v).ip = s.ip := rfl
@[simp] theorem State.emit_rb (s : State) (v : Cell) : (s.emit v).rb = s.rb := rfl
@[simp] theorem State.emit_status (s : State) (v : Cell) : (s.emit v).status = s.status := rfl
@[simp] theorem State.emit_inq (s : State) (v : Cell) : (s.emit v).inq = s.inq := rfl
@[simp] theorem State.emit_out (s : State) (v : Cell) : (s.emit v).out = s.out ++ [v] := rfl
@[simp] theorem State.emit_cell (s : State) (v : Cell) (a : Nat) : (s.emit v).cell a = s.cell a := rfl

@[simp] theorem State.touch_mem (s : State) (as : List Nat) : (s.touch as).mem = s.mem := rfl
@[simp] theorem State.touch_len (s : State) (as : List Nat) : (s.touch as).len = lenAfter s.len as := rfl
@[simp] theorem State.touch_ip (s : State) (as : List Nat) : (s.touch as).ip = s.ip := rfl
@[simp] theorem State.touch_rb (s : State) (as : List Nat) : (s.touch as).rb = s.rb := rfl
@[simp] theorem State.touch_status (s : State) (as : List Nat) : (s.touch as).status = s.status := rfl
@[simp] theorem State.touch_inq (s : State) (as : List Nat) : (s.touch as).inq = s.inq := rfl
@[simp] theorem State.touch_out (s : State) (as : List Nat) : (s.touch as).out = s.out := rfl
@[simp] theorem State.touch_cell (s : State) (as : List Nat) (a : Nat) : (s.touch as).cell a = s.cell a := rfl

/-- Taking a fault changes the status and nothing else (rule R210). -/
@[simp] theorem raise_mem (t : Trap) (s : State) : (raise t s).mem = s.mem := rfl
@[simp] theorem raise_len (t : Trap) (s : State) : (raise t s).len = s.len := rfl
@[simp] theorem raise_ip (t : Trap) (s : State) : (raise t s).ip = s.ip := rfl
@[simp] theorem raise_rb (t : Trap) (s : State) : (raise t s).rb = s.rb := rfl
@[simp] theorem raise_status (t : Trap) (s : State) : (raise t s).status = .faulted (faultRecord t s) := rfl
@[simp] theorem raise_inq (t : Trap) (s : State) : (raise t s).inq = s.inq := rfl
@[simp] theorem raise_out (t : Trap) (s : State) : (raise t s).out = s.out := rfl
@[simp] theorem raise_cell (t : Trap) (s : State) (a : Nat) : (raise t s).cell a = s.cell a := rfl

/-- A meaning always answers a next state: the attempt's own, or the fault taken. -/
theorem commit_ok (s t : State) : commit s (.ok t) = .next t := rfl
theorem commit_error (s : State) (t : Trap) : commit s (.error t) = .next (raise t s) := rfl

end Sys2Proof.Machine
end

