-- ==== Sys2Proof/Laws/Arith.lean ====
section
/-! SUPPORT. Checked arithmetic: when a sum or product is a Cell, and what Cell it is (rules R7, R14, R153). -/

namespace Sys2Proof

/-- Every Cell's value fits. -/
theorem fits_toInt (c : Cell) : FitsCell c.toInt := by
  have h1 := BitVec.le_toInt (x := c)
  have h2 := BitVec.toInt_lt (x := c)
  norm_num at h1 h2
  simp only [FitsCell, cellMin, cellMax]
  omega

/-- A value that fits is the value of its Cell. -/
theorem Cell.toInt_ofInt {x : Int} (h : FitsCell x) : (Cell.ofInt x).toInt = x := by
  simp only [FitsCell, cellMin, cellMax] at h
  rw [Cell.ofInt, BitVec.toInt_ofInt_eq_self (by omega)] <;> norm_num <;> omega

@[simp] theorem Cell.ofInt_toInt (c : Cell) : Cell.ofInt c.toInt = c := BitVec.ofInt_toInt

/-- A small count as a Cell. -/
theorem toInt_ofNat_small {k : Nat} (h : k < 100) : (BitVec.ofNat 64 k).toInt = k := by
  have hk : (BitVec.ofNat 64 k).toNat = k := by
    rw [BitVec.toNat_ofNat, Nat.mod_eq_of_lt (by omega)]
  rw [BitVec.toInt_eq_toNat_of_lt (by omega), hk]

/-- Two Cells of equal value are equal. -/
theorem Cell.eq_iff_toInt {a b : Cell} : a = b ↔ a.toInt = b.toInt := BitVec.toInt_inj.symm

end Sys2Proof

namespace Sys2Proof.Machine

theorem narrow_ok {x : Int} (h : FitsCell x) : narrow x = .ok (Cell.ofInt x) := if_pos h

theorem narrow_error {x : Int} (h : ¬ FitsCell x) : narrow x = .error Trap.overflow := if_neg h

theorem resultTrap_none {x : Int} (h : FitsCell x) : resultTrap x = none := if_pos h

theorem resultTrap_some {x : Int} (h : ¬ FitsCell x) : resultTrap x = some Trap.overflow := if_neg h

/-- An exact result raises nothing just where it fits (rule R7). -/
theorem resultTrap_eq_none {x : Int} : resultTrap x = none ↔ FitsCell x := by
  by_cases h : FitsCell x
  · exact ⟨fun _ => h, resultTrap_none⟩
  · rw [resultTrap_some h]
    exact ⟨(nomatch ·), fun hf => absurd hf h⟩

theorem addressTrap_overflow {ea : Int} (h : ¬ FitsCell ea) : addressTrap ea = some Trap.overflow := if_pos h

theorem addressTrap_negative {ea : Int} (h : FitsCell ea) (hn : ea < 0) :
    addressTrap ea = some (Trap.negativeAddress (Cell.ofInt ea)) := by
  rw [addressTrap, if_neg (not_not.mpr h), if_pos hn]

theorem addressTrap_none {ea : Int} (h0 : 0 ≤ ea) (h : ea ≤ cellMax) : addressTrap ea = none := by
  have hf : FitsCell ea := ⟨Int.le_trans (by decide) h0, h⟩
  rw [addressTrap, if_neg (not_not.mpr hf), if_neg (Int.not_lt.mpr h0)]

/-- An address raises nothing just where it exists (rule R58). -/
theorem addressTrap_eq_none {ea : Int} : addressTrap ea = none ↔ 0 ≤ ea ∧ ea ≤ cellMax := by
  constructor
  · intro h
    by_cases hf : FitsCell ea
    · by_cases hn : ea < 0
      · rw [addressTrap_negative hf hn] at h
        cases h
      · exact ⟨Int.not_lt.mp hn, hf.2⟩
    · rw [addressTrap_overflow hf] at h
      cases h
  · exact fun h => addressTrap_none h.1 h.2

theorem codeTrap_none {n : Nat} {s : State} (h : CodeOk n s) : codeTrap n s = none := by
  rw [codeTrap, if_neg (Int.not_lt.mpr h.1), if_pos h.2]

theorem codeTrap_negative {n : Nat} {s : State} (h : s.ip.toInt < 0) :
    codeTrap n s = some (Trap.negativeAddress s.ip) := if_pos h

theorem codeTrap_overflow {n : Nat} {s : State} (h0 : 0 ≤ s.ip.toInt) (h : cellMax < s.ip.toInt + n) :
    codeTrap n s = some Trap.overflow := by
  rw [codeTrap, if_neg (Int.not_lt.mpr h0), if_neg (Int.not_le.mpr h)]

theorem sourceTrap_none {m : Mode} {k : Nat} {s : State} (h : SourceOk m k s) : sourceTrap m k s = none := by
  cases m with
  | immediate => rfl
  | position => rcases h with h | h <;> [cases h; exact addressTrap_none h.1 h.2]
  | relative => rcases h with h | h <;> [cases h; exact addressTrap_none h.1 h.2]

theorem targetTrap_none {m : Mode} {k : Nat} {s : State} (h : TargetOk m k s) : targetTrap m k s = none := by
  cases m with
  | immediate => exact absurd rfl h.1
  | position => exact addressTrap_none h.2.1 h.2.2
  | relative => exact addressTrap_none h.2.1 h.2.2

/-- All that `narrow` can do. -/
theorem narrow_eq (x : Int) :
    narrow x = match resultTrap x with
      | some t => .error t
      | none => .ok (Cell.ofInt x) := by
  unfold narrow resultTrap
  split <;> rfl

/-- All that `cadd` can do (rule R14). -/
theorem cadd_eq (a b : Cell) :
    cadd a b = match resultTrap (a.toInt + b.toInt) with
      | some t => .error t
      | none => .ok (Cell.ofInt (a.toInt + b.toInt)) := narrow_eq _

/-- All that `cmul` can do (rule R14). -/
theorem cmul_eq (a b : Cell) :
    cmul a b = match resultTrap (a.toInt * b.toInt) with
      | some t => .error t
      | none => .ok (Cell.ofInt (a.toInt * b.toInt)) := narrow_eq _

/-- All that `advance` can do (rule R135). -/
theorem advance_eq {n : Nat} (h : n < 100) (s : State) :
    advance n s = match resultTrap (s.ip.toInt + n) with
      | some t => .error t
      | none => .ok (Cell.ofInt (s.ip.toInt + n)) := by
  rw [advance, cadd_eq, toInt_ofNat_small h]

theorem isTrue_eq (c : Cell) : isTrue c = decide (c.toInt ≠ 0) := by
  have h : c = 0 ↔ c.toInt = 0 := Cell.eq_iff_toInt
  simp only [isTrue, ne_eq, h]

end Sys2Proof.Machine
end

