-- ==== Sys2Proof/Laws/Memory.lean ====
section
/-! SUPPORT. Memory: a read after a write, and that every memory operation keeps the canonical form and the invariant of
rule R57 (a). The read laws hold of every list, canonical or not. -/

namespace Sys2Proof.Machine

@[simp] theorem Memory.read_nil (a : Nat) : Memory.read [] a = 0 := rfl

theorem Memory.read_cons (b : Nat) (w : Cell) (m : Memory) (a : Nat) :
    Memory.read ((b, w) :: m) a = if a = b then w else Memory.read m a := rfl

theorem Memory.read_insert_same (m : Memory) (a : Nat) (v : Cell) : Memory.read (Memory.insert m a v) a = v := by
  induction m with
  | nil => simp [Memory.insert, Memory.read]
  | cons e m ih =>
    obtain ⟨b, w⟩ := e
    simp only [Memory.insert]
    split
    · simp [Memory.read_cons]
    · split
      · simp [Memory.read_cons]
      · simp [Memory.read_cons, *]

theorem Memory.read_insert_other (m : Memory) {a b : Nat} (v : Cell) (h : b ≠ a) :
    Memory.read (Memory.insert m a v) b = Memory.read m b := by
  induction m with
  | nil => simp [Memory.insert, Memory.read_cons, h]
  | cons e m ih =>
    obtain ⟨c, w⟩ := e
    simp only [Memory.insert]
    split
    · simp [Memory.read_cons, h]
    · split
      · rename_i hac
        subst hac
        simp [Memory.read_cons, h]
      · simp [Memory.read_cons, ih]

theorem Memory.read_erase_same (m : Memory) (a : Nat) : Memory.read (Memory.erase m a) a = 0 := by
  induction m with
  | nil => rfl
  | cons e m ih =>
    obtain ⟨b, w⟩ := e
    simp only [Memory.erase]
    split
    · exact ih
    · simp [Memory.read_cons, *]

theorem Memory.read_erase_other (m : Memory) {a b : Nat} (h : b ≠ a) :
    Memory.read (Memory.erase m a) b = Memory.read m b := by
  induction m with
  | nil => rfl
  | cons e m ih =>
    obtain ⟨c, w⟩ := e
    simp only [Memory.erase]
    split
    · rename_i hac
      subst hac
      simp [Memory.read_cons, h, ih]
    · simp [Memory.read_cons, ih]

/-- A read of the address just written gives the Cell written. -/
@[simp] theorem Memory.read_write_same (m : Memory) (a : Nat) (v : Cell) : Memory.read (Memory.write m a v) a = v := by
  unfold Memory.write
  split
  · rename_i h
    rw [Memory.read_erase_same, h]
  · exact Memory.read_insert_same m a v

/-- A write leaves every other address alone. -/
theorem Memory.read_write_other (m : Memory) {a b : Nat} (v : Cell) (h : b ≠ a) :
    Memory.read (Memory.write m a v) b = Memory.read m b := by
  unfold Memory.write
  split
  · exact Memory.read_erase_other m h
  · exact Memory.read_insert_other m v h

@[simp] theorem State.cell_store_same (s : State) (a : Nat) (v : Cell) : (s.store a v).cell a = v :=
  Memory.read_write_same s.mem a v

theorem State.cell_store_other (s : State) {a b : Nat} (v : Cell) (h : b ≠ a) : (s.store a v).cell b = s.cell b :=
  Memory.read_write_other s.mem v h

theorem Memory.mem_insert {m : Memory} {a : Nat} {v : Cell} {e : Nat × Cell} (h : e ∈ Memory.insert m a v) :
    e = (a, v) ∨ e ∈ m := by
  induction m with
  | nil => simpa [Memory.insert] using h
  | cons x m ih =>
    obtain ⟨b, w⟩ := x
    simp only [Memory.insert] at h
    split at h
    · simpa using h
    · split at h
      · rcases List.mem_cons.mp h with h | h
        · exact .inl h
        · exact .inr (List.mem_cons_of_mem _ h)
      · rcases List.mem_cons.mp h with h | h
        · exact .inr (h ▸ List.mem_cons_self)
        · exact (ih h).imp id (List.mem_cons_of_mem _)

theorem Memory.mem_erase {m : Memory} {a : Nat} {e : Nat × Cell} (h : e ∈ Memory.erase m a) : e ∈ m := by
  induction m with
  | nil => exact h
  | cons x m ih =>
    obtain ⟨b, w⟩ := x
    simp only [Memory.erase] at h
    split at h
    · exact List.mem_cons_of_mem _ (ih h)
    · rcases List.mem_cons.mp h with h | h
      · exact h ▸ List.mem_cons_self
      · exact List.mem_cons_of_mem _ (ih h)

/-- An entry after a write is the Cell written or an entry before it. -/
theorem Memory.mem_write {m : Memory} {a : Nat} {v : Cell} {e : Nat × Cell} (h : e ∈ Memory.write m a v) :
    e = (a, v) ∨ e ∈ m := by
  unfold Memory.write at h
  split at h
  · exact .inr (Memory.mem_erase h)
  · exact Memory.mem_insert h

theorem Memory.wf_cons {a : Nat} {v : Cell} {m : Memory} :
    Memory.wf ((a, v) :: m) = true ↔ v ≠ 0 ∧ (∀ e ∈ m, a < e.1) ∧ Memory.wf m = true := by
  simp [Memory.wf, and_assoc]

theorem Memory.wf_insert {m : Memory} {a : Nat} {v : Cell} (hv : v ≠ 0) (h : Memory.wf m = true) :
    Memory.wf (Memory.insert m a v) = true := by
  induction m with
  | nil => exact Memory.wf_cons.mpr ⟨hv, by simp, rfl⟩
  | cons x m ih =>
    obtain ⟨b, w⟩ := x
    obtain ⟨hw, hlt, hm⟩ := Memory.wf_cons.mp h
    simp only [Memory.insert]
    split
    · rename_i hab
      refine Memory.wf_cons.mpr ⟨hv, ?_, h⟩
      intro e he
      rcases List.mem_cons.mp he with he | he
      · exact he ▸ hab
      · exact Nat.lt_trans hab (hlt e he)
    · split
      · rename_i hab
        subst hab
        exact Memory.wf_cons.mpr ⟨hv, hlt, hm⟩
      · refine Memory.wf_cons.mpr ⟨hw, ?_, ih hm⟩
        intro e he
        rcases Memory.mem_insert he with he | he
        · subst he
          simp only
          omega
        · exact hlt e he

theorem Memory.wf_erase {m : Memory} (a : Nat) (h : Memory.wf m = true) : Memory.wf (Memory.erase m a) = true := by
  induction m with
  | nil => rfl
  | cons x m ih =>
    obtain ⟨b, w⟩ := x
    obtain ⟨hw, hlt, hm⟩ := Memory.wf_cons.mp h
    simp only [Memory.erase]
    split
    · exact ih hm
    · exact Memory.wf_cons.mpr ⟨hw, fun e he => hlt e (Memory.mem_erase he), ih hm⟩

/-- Every write keeps the canonical form. -/
theorem Memory.wf_write {m : Memory} (a : Nat) (v : Cell) (h : Memory.wf m = true) :
    Memory.wf (Memory.write m a v) = true := by
  unfold Memory.write
  split
  · exact Memory.wf_erase a h
  · rename_i hv
    exact Memory.wf_insert hv h

/-- An address above every entry reads as 0. -/
theorem Memory.read_eq_zero {m : Memory} {a : Nat} (h : ∀ e ∈ m, e.1 ≠ a) : Memory.read m a = 0 := by
  induction m with
  | nil => rfl
  | cons x m ih =>
    obtain ⟨b, w⟩ := x
    rw [Memory.read_cons, if_neg (fun hab => h (b, w) List.mem_cons_self hab.symm)]
    exact ih fun e he => h e (List.mem_cons_of_mem _ he)

/-- Rule R57 (a): under the invariant a Cell at or beyond `len` is 0. -/
theorem State.cell_beyond_len {s : State} (h : s.Inv) {a : Nat} (ha : s.len ≤ a) : s.cell a = 0 :=
  Memory.read_eq_zero fun e he hea => by have := h.2.1 e he; omega

theorem Memory.read_of_mem {m : Memory} (h : Memory.wf m = true) {e : Nat × Cell} (he : e ∈ m) :
    Memory.read m e.1 = e.2 := by
  induction m with
  | nil => cases he
  | cons x m ih =>
    obtain ⟨b, w⟩ := x
    obtain ⟨_, hlt, hm⟩ := Memory.wf_cons.mp h
    rcases List.mem_cons.mp he with he | he
    · subst he
      simp [Memory.read_cons]
    · rw [Memory.read_cons, if_neg (Nat.ne_of_gt (hlt e he))]
      exact ih hm he

theorem Memory.read_below {m : Memory} {a : Nat} (ha : ∀ e ∈ m, a < e.1) :
    Memory.read m a = 0 := Memory.read_eq_zero fun e he => Nat.ne_of_gt (ha e he)

/-- Canonical memories that read alike are equal: the form is canonical. -/
theorem Memory.ext_of_wf {m m' : Memory} (h : Memory.wf m = true) (h' : Memory.wf m' = true)
    (heq : ∀ a, Memory.read m a = Memory.read m' a) : m = m' := by
  induction m generalizing m' with
  | nil =>
    cases m' with
    | nil => rfl
    | cons y m' =>
      obtain ⟨c, u⟩ := y
      obtain ⟨hu, _, _⟩ := Memory.wf_cons.mp h'
      have := heq c
      simp [Memory.read_cons] at this
      exact absurd this.symm hu
  | cons x m ih =>
    obtain ⟨b, w⟩ := x
    obtain ⟨hw, hlt, hm⟩ := Memory.wf_cons.mp h
    cases m' with
    | nil =>
      have := heq b
      simp [Memory.read_cons] at this
      exact absurd this hw
    | cons y m' =>
      obtain ⟨c, u⟩ := y
      obtain ⟨hu, hlt', hm'⟩ := Memory.wf_cons.mp h'
      have hbc : b = c := by
        rcases Nat.lt_trichotomy b c with hbc | hbc | hbc
        · have := heq b
          rw [Memory.read_cons, if_pos rfl, Memory.read_below] at this
          · exact absurd this hw
          · intro e he
            rcases List.mem_cons.mp he with he | he
            · exact he ▸ hbc
            · exact Nat.lt_trans hbc (hlt' e he)
        · exact hbc
        · have := heq c
          rw [Memory.read_cons c, if_pos rfl, Memory.read_below] at this
          · exact absurd this.symm hu
          · intro e he
            rcases List.mem_cons.mp he with he | he
            · exact he ▸ hbc
            · exact Nat.lt_trans hbc (hlt e he)
      subst hbc
      have hwu : w = u := by simpa [Memory.read_cons] using heq b
      subst hwu
      congr 1
      refine ih hm hm' fun a => ?_
      by_cases hab : a = b
      · subst hab
        rw [Memory.read_below hlt, Memory.read_below hlt']
      · simpa [Memory.read_cons, hab] using heq a

theorem State.inv_grow {s : State} {a : Nat} (h : s.Inv) (ha : a < Config.memoryCells) : (s.grow a).Inv := by
  refine ⟨h.1, fun e he => ?_, ?_⟩
  · have := h.2.1 e he
    simp only [State.grow_len]
    omega
  · have := h.2.2
    simp only [State.grow_len]
    omega

/-- A store at an address that exists keeps the invariant. -/
theorem State.inv_store {s : State} {a : Nat} {v : Cell} (h : s.Inv) (ha : a < Config.memoryCells) :
    (s.store a v).Inv := by
  refine ⟨Memory.wf_write a v h.1, fun e he => ?_, ?_⟩
  · simp only [State.store_len]
    rcases Memory.mem_write he with he | he
    · subst he
      simp only
      omega
    · have := h.2.1 e he
      omega
  · have := h.2.2
    simp only [State.store_len]
    omega

/-- A negative Cell has no address and every other Cell has one inside the address space. -/
theorem cellAddress_lt (c : Cell) : cellAddress c < Config.memoryCells := by
  have h := BitVec.toInt_lt (x := c)
  have h9 : Config.memoryCells = 9223372036854775808 := rfl
  simp only [cellAddress] at *
  norm_num at h
  omega

/-- The image is listed in canonical form at the addresses from `a` up. -/
theorem imageFrom_bounds (a : Nat) (vs : List Cell) : ∀ e ∈ imageFrom a vs, a ≤ e.1 ∧ e.1 < a + vs.length := by
  induction vs generalizing a with
  | nil => intro e he; cases he
  | cons v vs ih =>
    intro e he
    simp only [imageFrom] at he
    simp only [List.length_cons]
    split at he
    · have := ih (a + 1) e he
      omega
    · rcases List.mem_cons.mp he with he | he
      · subst he
        simp only
        omega
      · have := ih (a + 1) e he
        omega

theorem imageFrom_wf (a : Nat) (vs : List Cell) : Memory.wf (imageFrom a vs) = true := by
  induction vs generalizing a with
  | nil => rfl
  | cons v vs ih =>
    simp only [imageFrom]
    split
    · exact ih (a + 1)
    · rename_i hv
      refine Memory.wf_cons.mpr ⟨hv, fun e he => ?_, ih (a + 1)⟩
      have := imageFrom_bounds (a + 1) vs e he
      omega

/-- Rule R40: Cell `k` of the image lies at the `k`-th address, and every other address holds 0. -/
theorem imageFrom_read (a : Nat) (vs : List Cell) (k : Nat) :
    Memory.read (imageFrom a vs) (a + k) = vs.getD k 0 := by
  induction vs generalizing a k with
  | nil => simp [imageFrom]
  | cons v vs ih =>
    cases k with
    | zero =>
      simp only [imageFrom]
      split
      · rename_i hv
        rw [Memory.read_eq_zero fun e he => by have := imageFrom_bounds (a + 1) vs e he; omega]
        simp [hv]
      · simp [Memory.read_cons]
    | succ k =>
      have h := ih (a + 1) k
      rw [show a + 1 + k = a + (k + 1) by omega] at h
      simp only [imageFrom]
      split
      · simpa using h
      · rw [Memory.read_cons, if_neg (by omega)]
        simpa using h

end Sys2Proof.Machine
end

