-- ==== Sys2Proof/Laws/Operands.lean ====
section
/-! SUPPORT. Everything each shared operation can do, in the terms of Sys2Proof/Safety.lean: one equation per operation,
which a proof about an instruction cites instead of unfolding the operation. -/

namespace Sys2Proof.Machine

@[simp] theorem bind_ok {α β : Type} (a : α) (f : α → Attempt β) : (Except.ok a >>= f) = f a := rfl

@[simp] theorem bind_error {α β : Type} (t : Trap) (f : α → Attempt β) :
    ((Except.error t : Attempt α) >>= f) = .error t := rfl

/-- A growth is one more address touched. -/
theorem State.grow_touch (s : State) (as : List Nat) (a : Nat) : (s.touch as).grow a = s.touch (as ++ [a]) := by
  simp [State.grow, State.touch, lenAfter]

theorem State.grow_eq_touch (s : State) (a : Nat) : s.grow a = s.touch [a] := rfl

theorem State.touch_nil (s : State) : s.touch [] = s := rfl

theorem lenAfter_append (len : Nat) (as bs : List Nat) : lenAfter len (as ++ bs) = lenAfter (lenAfter len as) bs := by
  simp [lenAfter]

/-- Memory length never decreases (rule R57 (c)). -/
theorem le_lenAfter (len : Nat) (as : List Nat) : len ≤ lenAfter len as := by
  induction as generalizing len with
  | nil => exact Nat.le_refl len
  | cons a as ih => exact Nat.le_trans (Nat.le_max_left len (a + 1)) (ih (max len (a + 1)))

/-- Every address touched lies below the length after (rule R57 (b)). -/
theorem lt_lenAfter {len : Nat} {as : List Nat} {a : Nat} (h : a ∈ as) : a < lenAfter len as := by
  induction as generalizing len with
  | nil => cases h
  | cons b as ih =>
    rcases List.mem_cons.mp h with h | h
    · subst h
      exact Nat.lt_of_lt_of_le (Nat.lt_of_lt_of_le (Nat.lt_succ_self a) (Nat.le_max_right len (a + 1)))
        (le_lenAfter _ as)
    · exact ih h

theorem lenAfter_le {len n : Nat} {as : List Nat} (hl : len ≤ n) (h : ∀ a ∈ as, a < n) : lenAfter len as ≤ n := by
  induction as generalizing len with
  | nil => exact hl
  | cons b as ih =>
    have hb := h b List.mem_cons_self
    exact ih (Nat.max_le.mpr ⟨hl, hb⟩) fun a ha => h a (List.mem_cons_of_mem _ ha)

/-- The negative-address check on the Cell of an exact address (rules R55, R130). -/
theorem checkAddress_ofInt {x : Int} (h : FitsCell x) :
    checkAddress (Cell.ofInt x) = if x < 0 then .error (Trap.negativeAddress (Cell.ofInt x)) else .ok x.toNat := by
  simp only [checkAddress, cellAddress, Cell.toInt_ofInt h]

theorem memRead_of_nonneg {a : Cell} (h : 0 ≤ a.toInt) (s : State) :
    memRead a s = .ok (s.cell (cellAddress a), s.grow (cellAddress a)) := by
  simp [memRead, checkAddress, Int.not_lt.mpr h]

theorem memRead_of_neg {a : Cell} (h : a.toInt < 0) (s : State) : memRead a s = .error (Trap.negativeAddress a) := by
  simp [memRead, checkAddress, h]

theorem memWrite_of_nonneg {a : Cell} (h : 0 ≤ a.toInt) (v : Cell) (s : State) :
    memWrite a v s = .ok (s.store (cellAddress a) v) := by
  simp [memWrite, checkAddress, Int.not_lt.mpr h]

theorem memWrite_of_neg {a : Cell} (h : a.toInt < 0) (v : Cell) (s : State) :
    memWrite a v s = .error (Trap.negativeAddress a) := by
  simp [memWrite, checkAddress, h]

/-- Reading at an exact address that is a Cell: all that can happen. -/
theorem memRead_ofInt {x : Int} (h : FitsCell x) (s : State) (as : List Nat) :
    memRead (Cell.ofInt x) (s.touch as) =
      if x < 0 then .error (Trap.negativeAddress (Cell.ofInt x)) else .ok (s.cell x.toNat, s.touch (as ++ [x.toNat])) := by
  rw [memRead, checkAddress_ofInt h]
  split
  · rfl
  · simp [State.grow_touch]

/-- Resolving an exact address that need not be a Cell: the checked sum, then the read (rules R127 to R129). -/
theorem memRead_narrow (x : Int) (s : State) (as : List Nat) :
    (narrow x >>= fun ea => memRead ea (s.touch as)) =
      match addressTrap x with
      | some t => .error t
      | none => .ok (s.cell x.toNat, s.touch (as ++ [x.toNat])) := by
  by_cases hf : FitsCell x
  · rw [narrow_ok hf, bind_ok, memRead_ofInt hf]
    by_cases hn : x < 0
    · rw [addressTrap_negative hf hn, if_pos hn]
    · rw [addressTrap_none (Int.not_lt.mp hn) hf.2, if_neg hn]
  · rw [narrow_error hf, addressTrap_overflow hf]
    rfl

/-- The same for a write target, which is not read (rule R130). -/
theorem checkAddress_narrow (x : Int) :
    (narrow x >>= fun ea => checkAddress ea) =
      match addressTrap x with
      | some t => .error t
      | none => .ok x.toNat := by
  by_cases hf : FitsCell x
  · rw [narrow_ok hf, bind_ok, checkAddress_ofInt hf]
    by_cases hn : x < 0
    · rw [addressTrap_negative hf hn, if_pos hn]
    · rw [addressTrap_none (Int.not_lt.mp hn) hf.2, if_neg hn]
  · rw [narrow_error hf, addressTrap_overflow hf]
    rfl

/-- A Cell is the narrowing of its own value. -/
theorem narrow_toInt (c : Cell) : narrow c.toInt = .ok c := by
  rw [narrow_ok (fits_toInt c), Cell.ofInt_toInt]

/-- Rule R129: all that resolving a source slot can do. -/
theorem sourceValue_eq (m : Mode) (k : Nat) (s : State) (as : List Nat) :
    sourceValue m (s.literal k) (s.touch as) =
      match sourceTrap m k s with
      | some t => .error t
      | none => .ok (sourceOf m k s, s.touch (as ++ sourceCells m k s)) := by
  cases m with
  | immediate => simp [sourceValue, sourceTrap, sourceOf, sourceCells]
  | position =>
    have h := memRead_narrow (s.literal k).toInt s as
    rw [narrow_toInt, bind_ok] at h
    exact h
  | relative => exact memRead_narrow (s.rb.toInt + (s.literal k).toInt) s as

/-- Rule R130: all that resolving a write slot can do. -/
theorem targetAddress_eq (m : Mode) (k : Nat) (s : State) (as : List Nat) :
    targetAddress m (s.literal k) (s.touch as) =
      match targetTrap m k s with
      | some t => .error t
      | none => .ok (targetOf m k s) := by
  cases m with
  | immediate => rfl
  | position =>
    have h := checkAddress_narrow (s.literal k).toInt
    rw [narrow_toInt, bind_ok] at h
    exact h
  | relative => exact checkAddress_narrow (s.rb.toInt + (s.literal k).toInt)

/-- Rule R121: all that fetching the word can do. -/
theorem fetchWord_eq (s : State) :
    fetchWord s = if s.ip.toInt < 0 then .error (Trap.negativeAddress s.ip)
      else .ok (s.cell (cellAddress s.ip), s.touch [cellAddress s.ip]) := by
  unfold fetchWord
  split
  · rename_i h
    exact memRead_of_neg h s
  · rename_i h
    exact memRead_of_nonneg (by omega) s

/-- Rule R123: all that fetching literal `k` can do, where `ip` is not negative. -/
theorem fetchLiteral_eq {k : Nat} (hk : k < 100) {s : State} (h0 : 0 ≤ s.ip.toInt) (as : List Nat) :
    fetchLiteral k (s.touch as) =
      if s.ip.toInt + k ≤ cellMax then .ok (s.literal k, s.touch (as ++ [cellAddress s.ip + k]))
      else .error Trap.overflow := by
  have h := memRead_narrow (s.ip.toInt + k) s as
  have hn : (s.ip.toInt + (k : Int)).toNat = cellAddress s.ip + k := by
    simp only [cellAddress]
    omega
  rw [hn] at h
  rw [fetchLiteral, cadd, State.touch_ip, toInt_ofNat_small hk, h]
  by_cases hm : s.ip.toInt + (k : Int) ≤ cellMax
  · rw [addressTrap_none (by omega) hm, if_pos hm]
    rfl
  · rw [addressTrap_overflow fun hf => hm hf.2, if_neg hm]

/-- How one more literal extends a fetch. -/
theorem codeTrap_succ (n : Nat) (s : State) :
    codeTrap (n + 1) s = match codeTrap n s with
      | some t => some t
      | none => if s.ip.toInt + (n + 1 : Nat) ≤ cellMax then none else some Trap.overflow := by
  by_cases h0 : s.ip.toInt < 0
  · rw [codeTrap_negative h0, codeTrap_negative h0]
  · have h0 := Int.not_lt.mp h0
    by_cases hn : s.ip.toInt + (n : Int) ≤ cellMax
    · rw [codeTrap_none ⟨h0, hn⟩, codeTrap, if_neg (Int.not_lt.mpr h0)]
    · have hs : ¬ s.ip.toInt + ((n + 1 : Nat) : Int) ≤ cellMax := by
        push_cast
        omega
      rw [codeTrap_overflow h0 (Int.not_le.mp hn), codeTrap_overflow h0 (Int.not_le.mp hs)]

theorem ip_nonneg_of_codeTrap {n : Nat} {s : State} (h : codeTrap n s = none) : 0 ≤ s.ip.toInt := by
  by_contra hn
  rw [codeTrap_negative (Int.not_le.mp hn)] at h
  cases h

theorem codeCells_succ (n : Nat) (s : State) : codeCells (n + 1) s = codeCells n s ++ [cellAddress s.ip + (n + 1)] := by
  simp [codeCells, List.range_succ]

theorem fetch0_eq (s : State) :
    fetch0 s = match codeTrap 0 s with
      | some t => .error t
      | none => .ok (s.touch (codeCells 0 s)) := by
  rw [fetch0, fetchWord_eq]
  by_cases h0 : s.ip.toInt < 0
  · rw [if_pos h0, codeTrap_negative h0]
    rfl
  · rw [if_neg h0, codeTrap_none ⟨Int.not_lt.mp h0, by simpa using (fits_toInt s.ip).2⟩]
    rfl

theorem fetch1_eq (s : State) :
    fetch1 s = match codeTrap 1 s with
      | some t => .error t
      | none => .ok (s.literal 1, s.touch (codeCells 1 s)) := by
  rw [fetch1, fetch0_eq, codeTrap_succ 0, codeCells_succ 0]
  cases h : codeTrap 0 s with
  | some t => rfl
  | none =>
    simp only [bind_ok]
    rw [fetchLiteral_eq (by omega) (ip_nonneg_of_codeTrap h)]
    split <;> rfl

theorem fetch2_eq (s : State) :
    fetch2 s = match codeTrap 2 s with
      | some t => .error t
      | none => .ok (s.literal 1, s.literal 2, s.touch (codeCells 2 s)) := by
  rw [fetch2, fetch1_eq, codeTrap_succ 1, codeCells_succ 1]
  cases h : codeTrap 1 s with
  | some t => rfl
  | none =>
    simp only [bind_ok]
    rw [fetchLiteral_eq (by omega) (ip_nonneg_of_codeTrap h)]
    split <;> rfl

theorem fetch3_eq (s : State) :
    fetch3 s = match codeTrap 3 s with
      | some t => .error t
      | none => .ok (s.literal 1, s.literal 2, s.literal 3, s.touch (codeCells 3 s)) := by
  rw [fetch3, fetch2_eq, codeTrap_succ 2, codeCells_succ 2]
  cases h : codeTrap 2 s with
  | some t => rfl
  | none =>
    simp only [bind_ok]
    rw [fetchLiteral_eq (by omega) (ip_nonneg_of_codeTrap h)]
    split <;> rfl

/-- An optional fault before the rest: how the equations below chain. -/
def orElseOk {α : Type} (t : Option Trap) (r : α) : Attempt α :=
  match t with
  | some t => .error t
  | none => .ok r

@[simp] theorem orElseOk_none {α : Type} (r : α) : orElseOk none r = .ok r := rfl
@[simp] theorem orElseOk_some {α : Type} (t : Trap) (r : α) : orElseOk (some t) r = .error t := rfl
@[simp] theorem firstTrap_nil : firstTrap [] = none := rfl
@[simp] theorem firstTrap_some (t : Trap) (ts : List (Option Trap)) : firstTrap (some t :: ts) = some t := rfl
@[simp] theorem firstTrap_none (ts : List (Option Trap)) : firstTrap (none :: ts) = firstTrap ts := rfl

/-- All that `operandsS` can do. -/
theorem operandsS_eq (m1 : Mode) (s : State) :
    operandsS m1 s = orElseOk (firstTrap [codeTrap 1 s, sourceTrap m1 1 s])
      (sourceOf m1 1 s, s.touch (codeCells 1 s ++ sourceCells m1 1 s)) := by
  rw [operandsS, fetch1_eq]
  cases codeTrap 1 s with
  | some t => rfl
  | none =>
    simp only [bind_ok, sourceValue_eq]
    cases sourceTrap m1 1 s <;> rfl

/-- All that `operandsT` can do. -/
theorem operandsT_eq (m1 : Mode) (s : State) :
    operandsT m1 s = orElseOk (firstTrap [codeTrap 1 s, targetTrap m1 1 s])
      (targetOf m1 1 s, s.touch (codeCells 1 s)) := by
  rw [operandsT, fetch1_eq]
  cases codeTrap 1 s with
  | some t => rfl
  | none =>
    simp only [bind_ok, targetAddress_eq]
    cases targetTrap m1 1 s <;> rfl

/-- All that `operandsSS` can do. -/
theorem operandsSS_eq (m1 m2 : Mode) (s : State) :
    operandsSS m1 m2 s = orElseOk (firstTrap [codeTrap 2 s, sourceTrap m1 1 s, sourceTrap m2 2 s])
      (sourceOf m1 1 s, sourceOf m2 2 s, s.touch (codeCells 2 s ++ sourceCells m1 1 s ++ sourceCells m2 2 s)) := by
  rw [operandsSS, fetch2_eq]
  cases codeTrap 2 s with
  | some t => rfl
  | none =>
    simp only [bind_ok, sourceValue_eq]
    cases sourceTrap m1 1 s with
    | some t => rfl
    | none =>
      simp only [bind_ok, sourceValue_eq]
      cases sourceTrap m2 2 s <;> rfl

/-- All that `operandsSST` can do. -/
theorem operandsSST_eq (m1 m2 m3 : Mode) (s : State) :
    operandsSST m1 m2 m3 s =
      orElseOk (firstTrap [codeTrap 3 s, sourceTrap m1 1 s, sourceTrap m2 2 s, targetTrap m3 3 s])
        (sourceOf m1 1 s, sourceOf m2 2 s, targetOf m3 3 s,
          s.touch (codeCells 3 s ++ sourceCells m1 1 s ++ sourceCells m2 2 s)) := by
  rw [operandsSST, fetch3_eq]
  cases codeTrap 3 s with
  | some t => rfl
  | none =>
    simp only [bind_ok, sourceValue_eq]
    cases sourceTrap m1 1 s with
    | some t => rfl
    | none =>
      simp only [bind_ok, sourceValue_eq]
      cases sourceTrap m2 2 s with
      | some t => rfl
      | none =>
        simp only [bind_ok, targetAddress_eq]
        cases targetTrap m3 3 s <;> rfl

/-- A store after reads, and the move of `ip`, in one record. -/
theorem State.store_touch_setIp (s : State) (as : List Nat) (d : Nat) (r nip : Cell) :
    ((s.touch as).store d r).setIp nip =
      { s with mem := Memory.write s.mem d r, len := lenAfter s.len (as ++ [d]), ip := nip } := by
  simp [State.store, State.setIp, State.touch, lenAfter]

/-- All that the shared execute phase of Add, Multiply, LessThan and Equals can do (rules R150, R160). -/
theorem storeResult_eq (f : Cell → Cell → Attempt Cell) (m1 m2 m3 : Mode) (s : State) :
    storeResult f m1 m2 m3 s =
      orElseOk (firstTrap [codeTrap 3 s, sourceTrap m1 1 s, sourceTrap m2 2 s, targetTrap m3 3 s]) () >>= fun _ =>
        f (sourceOf m1 1 s) (sourceOf m2 2 s) >>= fun r =>
          orElseOk (resultTrap (s.ip.toInt + 4)) (afterStore m1 m2 m3 r s) := by
  rw [storeResult, operandsSST_eq]
  cases firstTrap [codeTrap 3 s, sourceTrap m1 1 s, sourceTrap m2 2 s, targetTrap m3 3 s] with
  | some t => rfl
  | none =>
    simp only [orElseOk_none, bind_ok]
    congr 1
    funext r
    rw [advance_eq (by omega)]
    simp only [State.touch_ip, Nat.cast_ofNat]
    cases resultTrap (s.ip.toInt + 4) with
    | some t => rfl
    | none => simp [State.store_touch_setIp, afterStore]

/-- All that the shared execute phase of the jumps can do (rule R180). -/
theorem jumpWhen_eq (guard : Cell → Bool) (m1 m2 : Mode) (s : State) :
    jumpWhen guard m1 m2 s =
      orElseOk (firstTrap [codeTrap 2 s, sourceTrap m1 1 s, sourceTrap m2 2 s]) () >>= fun _ =>
        if guard (sourceOf m1 1 s) then .ok (afterJump m1 m2 (sourceOf m2 2 s) s)
        else orElseOk (resultTrap (s.ip.toInt + 3)) (afterJump m1 m2 (Cell.ofInt (s.ip.toInt + 3)) s) := by
  rw [jumpWhen, operandsSS_eq]
  cases firstTrap [codeTrap 2 s, sourceTrap m1 1 s, sourceTrap m2 2 s] with
  | some t => rfl
  | none =>
    simp only [orElseOk_none, bind_ok]
    split
    · rfl
    · rw [advance_eq (by omega)]
      simp only [State.touch_ip, Nat.cast_ofNat]
      cases resultTrap (s.ip.toInt + 3) <;> rfl

/-- All that taking an input can do (rules R171, R223). -/
theorem takeInput_nil {s : State} (h : s.inq = []) (d : Nat) : takeInput d s = s.setStatus .waitingOnInput := by
  simp [takeInput, tryRead, h]

theorem takeInput_cons {s : State} {v : Cell} {rest : List Cell} (h : s.inq = v :: rest) (d : Nat) :
    takeInput d s = ({ s with inq := rest } : State).store d v := by
  simp [takeInput, tryRead, h]

end Sys2Proof.Machine
end

