-- ==== Sys2Proof/Laws/PerInstr.lean ====
section
/-! SUPPORT. Statements made for each instruction as syntax, one lemma per constructor. -/

namespace Sys2Proof.Laws.EncodingShape

/-- The shape of the encoding of an instruction, well formed or not (rules R81, R88, R90, R94): its digits lie inside the
decoder's domain, the low two are its opcode, none stands above its mode digits, and it has one mode for each parameter. -/
def Statement (i : Instr) : Prop :=
  (1 ≤ encodeDigits i ∧ encodeDigits i ≤ 99999) ∧ encodeDigits i % 100 = i.opcode ∧
    encodeDigits i / 10 ^ (i.arity + 2) = 0 ∧ i.modes.length = i.arity

theorem add (m1 m2 m3 : Mode) : Statement (.add m1 m2 m3) := by
  cases m1 <;> cases m2 <;> cases m3 <;> (unfold Statement; decide)

theorem multiply (m1 m2 m3 : Mode) : Statement (.multiply m1 m2 m3) := by
  cases m1 <;> cases m2 <;> cases m3 <;> (unfold Statement; decide)

theorem read (m1 : Mode) : Statement (.read m1) := by
  cases m1 <;> (unfold Statement; decide)

theorem write (m1 : Mode) : Statement (.write m1) := by
  cases m1 <;> (unfold Statement; decide)

theorem jumpIfTrue (m1 m2 : Mode) : Statement (.jumpIfTrue m1 m2) := by
  cases m1 <;> cases m2 <;> (unfold Statement; decide)

theorem jumpIfFalse (m1 m2 : Mode) : Statement (.jumpIfFalse m1 m2) := by
  cases m1 <;> cases m2 <;> (unfold Statement; decide)

theorem lessThan (m1 m2 m3 : Mode) : Statement (.lessThan m1 m2 m3) := by
  cases m1 <;> cases m2 <;> cases m3 <;> (unfold Statement; decide)

theorem equals (m1 m2 m3 : Mode) : Statement (.equals m1 m2 m3) := by
  cases m1 <;> cases m2 <;> cases m3 <;> (unfold Statement; decide)

theorem relativeBaseOffset (m1 : Mode) : Statement (.relativeBaseOffset m1) := by
  cases m1 <;> (unfold Statement; decide)

theorem halt : Statement .halt := by
  unfold Statement; decide

end Sys2Proof.Laws.EncodingShape
end

