-- ==== Sys2Proof/Laws/Run.lean ====
section
/-! SUPPORT. What the host's actions between runs can do, and what a step answers outside status `running`. -/

namespace Sys2Proof.Machine

/-- A host write stores one cell through the accessor, or, at a negative address, does nothing. -/
theorem State.patch_cases (s : State) (a v : Cell) :
    (a.toInt < 0 ∧ s.patch a v = s) ∨ (0 ≤ a.toInt ∧ s.patch a v = s.store (cellAddress a) v) := by
  by_cases h : a.toInt < 0
  · exact .inl ⟨h, by rw [State.patch, memWrite_of_neg h]⟩
  · exact .inr ⟨Int.not_lt.mp h, by rw [State.patch, memWrite_of_nonneg (Int.not_lt.mp h)]⟩

@[simp] theorem State.patch_status (s : State) (a v : Cell) : (s.patch a v).status = s.status := by
  rcases s.patch_cases a v with ⟨_, h⟩ | ⟨_, h⟩ <;> rw [h]; rfl

@[simp] theorem State.supplyInput_status (s : State) (vs : List Cell) : (s.supplyInput vs).status = s.status := rfl
@[simp] theorem State.supplyInput_inq (s : State) (vs : List Cell) : (s.supplyInput vs).inq = s.inq ++ vs := rfl
@[simp] theorem State.attachIo_status (s : State) (inq out : List Cell) : (s.attachIo inq out).status = s.status := rfl
@[simp] theorem State.takeOutput_status (s : State) : s.takeOutput.2.status = s.status := rfl

/-- Only a running machine steps. -/
theorem running_of_step {s t : State} (h : step s = .next t) : s.status = .running := by
  unfold step at h
  split at h
  · assumption
  all_goals cases h

/-- The entry of `run` sets a machine running that is running or waits, and changes nothing else. -/
theorem enterRun_cases {s t : State} (h : enterRun s = .next t) :
    (s.status = .running ∨ s.status = .waitingOnInput) ∧ t = s.setStatus .running := by
  unfold enterRun at h
  split at h
  · cases h; exact ⟨.inl ‹_›, rfl⟩
  · cases h; exact ⟨.inr ‹_›, rfl⟩
  all_goals cases h

end Sys2Proof.Machine
end

