-- ==== Sys2Proof/Tests/Slice0.lean ====
section
/-! SUPPORT. The model's own tests. Expected results come from spec/95_test_vectors.md (the row is named) or from a word written
out digit by digit from spec/30_encoding.md. Then, for each statement with hypotheses, a witness that meets them. -/

namespace Sys2Proof.Machine.Tests

/-- A loaded machine with `ip`, `rb` and an input queue given. -/
def at_ (image : List Cell) (ip rb : Cell) (inq : List Cell) : State :=
  { load image inq [] with ip := ip, rb := rb }

/-- The next state of an outcome. -/
def nextOf : Host.Outcome State Fault Refusal → Option State
  | .next t => some t
  | .fault _ => none
  | .refused _ => none

/-- One field of the state after a step. -/
def afterStep {α : Type} (f : State → α) (s : State) : Option α := (nextOf (step s)).map f

/-- The refusal of an outcome. -/
def refusalOf : Host.Outcome State Fault Refusal → Option Refusal
  | .next _ => none
  | .fault _ => none
  | .refused r => some r

/-- The fault of an outcome. -/
def stopOf : Host.Outcome State Fault Refusal → Option Fault
  | .next _ => none
  | .fault r => some r
  | .refused _ => none

/-- `CELL_MAX` as a Cell. -/
def top : Cell := 9223372036854775807

/-- `CELL_MIN` as a Cell. -/
def bottom : Cell := -9223372036854775808

/-- A machine that faulted, made from a record. -/
def someRecord : FaultRecord := ⟨.overflow, 0, some 1101, none⟩

/-- The instruction a word decodes to. -/
def decodesTo (raw : Cell) (i : Instr) : Bool := decide (decode raw = .ok i)

/-- The error a word fails with. -/
def failsWith (raw : Cell) (e : DecodeError) : Bool := decide (decode raw = .error e)

/-! Well-formedness: one ill-formed term for each check of rule R91. -/

theorem test_wf_refuses_immediate_target :
    (Instr.add .position .position .immediate).wf = false ∧
    (Instr.multiply .position .position .immediate).wf = false ∧
    (Instr.lessThan .position .position .immediate).wf = false ∧
    (Instr.equals .position .position .immediate).wf = false ∧
    (Instr.read .immediate).wf = false := by decide

theorem test_wf_accepts_other_modes :
    (Instr.add .immediate .relative .position).wf = true ∧ (Instr.read .relative).wf = true ∧
    (Instr.write .immediate).wf = true ∧ (Instr.jumpIfTrue .immediate .immediate).wf = true := by decide

/-! Decoding: a word for every constructor, digits `CBA` and opcode written out (rules R81, R86, R87, R90; vectors S1, V1). -/

theorem test_decode_add : decodesTo 1 (.add .position .position .position) ∧
    decodesTo 21101 (.add .immediate .immediate .relative) ∧
    decodesTo 1001 (.add .position .immediate .position) := by decide
theorem test_decode_multiply : decodesTo 1102 (.multiply .immediate .immediate .position) ∧
    decodesTo 22202 (.multiply .relative .relative .relative) := by decide
theorem test_decode_read : decodesTo 3 (.read .position) ∧ decodesTo 203 (.read .relative) := by decide
theorem test_decode_write : decodesTo 4 (.write .position) ∧ decodesTo 104 (.write .immediate) ∧
    decodesTo 204 (.write .relative) := by decide
theorem test_decode_jumpIfTrue : decodesTo 1005 (.jumpIfTrue .position .immediate) ∧
    decodesTo 2205 (.jumpIfTrue .relative .relative) := by decide
theorem test_decode_jumpIfFalse : decodesTo 1006 (.jumpIfFalse .position .immediate) ∧
    decodesTo 106 (.jumpIfFalse .immediate .position) := by decide
theorem test_decode_lessThan : decodesTo 1107 (.lessThan .immediate .immediate .position) ∧
    decodesTo 20107 (.lessThan .immediate .position .relative) := by decide
theorem test_decode_equals : decodesTo 1108 (.equals .immediate .immediate .position) ∧
    decodesTo 20008 (.equals .position .position .relative) := by decide
theorem test_decode_relativeBaseOffset : decodesTo 9 (.relativeBaseOffset .position) ∧
    decodesTo 109 (.relativeBaseOffset .immediate) ∧ decodesTo 209 (.relativeBaseOffset .relative) := by decide
theorem test_decode_halt : decodesTo 99 .halt := by decide

/-- Vectors V1: words out of range and bad opcodes. -/
theorem test_decode_range_and_opcode_errors :
    failsWith 0 .rawOutOfRange ∧ failsWith (-1) .rawOutOfRange ∧ failsWith 100000 .rawOutOfRange ∧
    failsWith 100001 .rawOutOfRange ∧ failsWith 10 (.badOpcode 10) ∧ failsWith 98 (.badOpcode 98) ∧
    failsWith 100 (.badOpcode 0) ∧ failsWith 11111 (.badOpcode 11) := by decide

/-- Vectors V1: bad digits, illegal modes and extraneous digits, with the priority cases. -/
theorem test_decode_mode_errors :
    failsWith 301 (.badModeDigit 1 3) ∧ failsWith 30001 (.badModeDigit 3 3) ∧ failsWith 1903 (.badModeDigit 1 9) ∧
    failsWith 31301 (.badModeDigit 1 3) ∧ failsWith 10001 (.modeNotLegalForSlot 3 .immediate) ∧
    failsWith 103 (.modeNotLegalForSlot 1 .immediate) ∧ failsWith 1103 (.modeNotLegalForSlot 1 .immediate) ∧
    failsWith 99999 .extraneousDigits ∧ failsWith 1003 .extraneousDigits ∧ failsWith 10105 .extraneousDigits ∧
    failsWith 199 .extraneousDigits := by decide

/-- Rule R110: the examples of the assembler notation. -/
theorem test_assemble :
    assemble (.multiply .immediate .immediate .position) [34915192, 34915192, 7] = [1102, 34915192, 34915192, 7] ∧
    assemble (.write .relative) [-1] = [204, -1] ∧ assemble .halt [] = [99] := by decide

/-- Rule R205: the cause codes. -/
theorem test_cause_codes :
    FaultCause.code (.decodeFault .extraneousDigits) = 5 ∧ FaultCause.code .negativeAddress = 6 ∧
    FaultCause.code .immediateWrite = 7 ∧ FaultCause.code .overflow = 8 := by decide

/-! Steps. -/

/-- Vector M6: source and destination the same cell. -/
theorem test_add_same_cell :
    afterStep (fun t => (t.cell 5, t.ip, t.len)) (at_ [1001, 5, 1, 5, 99, 41] 0 0 []) = some (42, 4, 6) := by decide
/-- Vector M4: the sum is no Cell. -/
theorem test_add_overflow_traps :
    afterStep (fun t => (t.status, t.ip, t.cell 5)) (at_ [1101, top, 1, 5, 99, 0] 0 0 [])
      = some (.faulted ⟨.overflow, 0, some 1101, none⟩, 0, 0) := by decide
/-- Vector M7: signs. -/
theorem test_multiply_signs :
    afterStep (fun t => (t.cell 5, t.ip)) (at_ [1102, -3, 4, 5, 99, 0] 0 0 []) = some (-12, 4) := by decide
/-- Vector M14: 2^64 is not wrapped to 0. -/
theorem test_multiply_overflow_traps :
    afterStep (fun t => (t.status, t.cell 5)) (at_ [1102, 4294967296, 4294967296, 5, 99, 7] 0 0 [])
      = some (.faulted ⟨.overflow, 0, some 1102, none⟩, 7) := by decide
/-- Vector I3: a Relative target, one value consumed. -/
theorem test_read_consumes_front :
    afterStep (fun t => (t.cell 5, t.len, t.ip, t.inq, t.status)) (at_ [203, 2, 99] 0 3 [-4, 6])
      = some (-4, 6, 2, [6], .running) := by decide
/-- Vector I8: no input, no store, no growth. -/
theorem test_read_without_input_waits :
    afterStep (fun t => (t.ip, t.status, t.len, t.mem)) (at_ [3, 12, 99] 0 0 [])
      = some (2, .waitingOnInput, 3, [(0, 3), (1, 12), (2, 99)]) := by decide
/-- Vector A4: a Relative source with a negative literal. -/
theorem test_write_relative :
    afterStep (fun t => (t.out, t.ip, t.status)) (at_ [204, -1, 99, 77] 0 4 []) = some ([77], 2, .running) := by decide
/-- Vector I13: a faulting Write emits nothing. -/
theorem test_write_negative_address :
    afterStep (fun t => (t.status, t.out, t.ip)) (at_ [4, -9, 99] 0 0 [])
      = some (.faulted ⟨.negativeAddress, 0, some 4, some (-9)⟩, [], 0) := by decide
/-- Vector J3: any value but 0 is true. -/
theorem test_jumpIfTrue_taken : afterStep State.ip (at_ [1105, -3, 4, 99] 0 0 []) = some 4 := by decide
/-- Vector J2: not taken. -/
theorem test_jumpIfTrue_not_taken : afterStep State.ip (at_ [1105, 0, 4, 99] 0 0 []) = some 3 := by decide
/-- Vector J5: taken on 0. -/
theorem test_jumpIfFalse_taken : afterStep State.ip (at_ [1106, 0, 4, 99] 0 0 []) = some 4 := by decide
/-- Vector J7: not taken. -/
theorem test_jumpIfFalse_not_taken :
    afterStep State.ip (at_ [1006, 8, 6, 104, 3, 99, 104, 4, 5] 0 0 []) = some 3 := by decide
/-- Vector C4: the comparison is signed. -/
theorem test_lessThan_signed : afterStep (fun t => t.cell 5) (at_ [1107, 0, bottom, 5, 99, 9] 0 0 []) = some 0 := by decide
/-- Vector C2: the comparison is strict. -/
theorem test_lessThan_strict : afterStep (fun t => t.cell 5) (at_ [1107, 3, 3, 5, 99, 9] 0 0 []) = some 0 := by decide
/-- Vector C10: a Relative target. -/
theorem test_equals_relative_target :
    afterStep (fun t => (t.cell 6, t.len)) (at_ [20008, 4, 4, 1, 99] 0 5 []) = some (1, 7) := by decide
/-- Vector C7: the sign matters. -/
theorem test_equals_sign : afterStep (fun t => t.cell 5) (at_ [1108, 8, -8, 5, 99, 7] 0 0 []) = some 0 := by decide
/-- Vector R4: a Relative source uses the old `rb`. -/
theorem test_relativeBaseOffset_old_rb :
    afterStep (fun t => (t.rb, t.ip)) (at_ [209, 1, 99, 0, 6] 0 3 []) = some (9, 2) := by decide
/-- Vector R7: the sum is no Cell. -/
theorem test_relativeBaseOffset_overflow :
    afterStep (fun t => (t.status, t.rb)) (at_ [109, -1, 99] 0 bottom [])
      = some (.faulted ⟨.overflow, 0, some 109, none⟩, bottom) := by decide
/-- Vector H2: the halt value is cell 0, and `ip` stays. -/
theorem test_halt_captures_cell_zero :
    afterStep (fun t => (t.status, t.ip)) (at_ [104, 42, 99] 2 0 []) = some (.halted 104, 2) := by decide
/-- Vector F16: Halt at the last address. -/
theorem test_halt_at_last_address :
    afterStep (fun t => (t.status, t.ip)) { at_ [5] top 0 [] with mem := [(0, 5), (9223372036854775807, 99)] }
      = some (.halted 5, top) := by decide

/-- Vector F14: Overflow in the literal fetch at the last address. -/
theorem test_literal_fetch_overflow :
    afterStep State.status { at_ [] top 0 [] with mem := [(9223372036854775807, 104)] }
      = some (.faulted ⟨.overflow, top, some 104, none⟩) := by decide
/-- Vector F2: the empty image, and the growth is not committed. -/
theorem test_empty_image :
    afterStep (fun t => (t.status, t.len)) State.reset = some (.faulted ⟨.decodeFault .rawOutOfRange, 0, some 0, none⟩, 0) := by
  decide
/-- Vector J9: the fetch at a negative address. -/
theorem test_negative_ip :
    afterStep State.status (at_ [99] (-7) 0 []) = some (.faulted ⟨.negativeAddress, -7, none, some (-7)⟩) := by decide
/-- Vector F13: slot 1 resolves first. -/
theorem test_first_fault_wins :
    afterStep State.status (at_ [201, 5, -1, 0] 0 top []) = some (.faulted ⟨.overflow, 0, some 201, none⟩) := by decide
/-- Vector A15: a literal beyond `len` is fetched as 0. -/
theorem test_literal_beyond_len :
    afterStep (fun t => (t.cell 0, t.len, t.ip)) (at_ [1101, 1, 1] 0 0 []) = some (2, 4, 4) := by decide
/-- Rules R142, R145 and R211: no step in the other statuses. -/
theorem test_no_step_unless_running :
    refusalOf (step { at_ [99] 0 0 [] with status := .waitingOnInput }) = some .waitingOnInput ∧
    refusalOf (step { at_ [99] 0 0 [] with status := .halted 7 }) = some (.halted 7) ∧
    stopOf (step { at_ [99] 0 0 [] with status := .faulted someRecord }) = some (.stopped someRecord) := by decide
/-- Vector L4: `run` goes on past the Read that found no input. -/
theorem test_resume_past_read :
    ((nextOf (runFor 4 { at_ [3, 5, 104, 7, 99, 0] 2 0 [] with status := .waitingOnInput })).map
      fun t => (t.status, t.out, t.cell 5)) = some (.halted 3, [7], 0) := by decide
/-- The core is the step and the reset state. -/
theorem test_core : core.step = step ∧ core.reset = State.reset := ⟨rfl, rfl⟩
/-- An instruction placed by `withFetchWord` is the one the next step runs: `1101, 2, 3, 9` as bits. -/
theorem test_withFetchWord :
    afterStep (fun t => (t.cell 9, t.ip)) (State.reset.withFetchWord 256 (1101 + 2 ^ 64 * 2 + 2 ^ 128 * 3 + 2 ^ 192 * 9))
      = some (5, 4) ∧ decodeTableWord 64 1101 = some (.add .immediate .immediate .position) := by decide

/-! Witnesses: concrete states and operands that meet the hypotheses of each statement, clause by clause. Where a clause has a
range, its ends are met. -/

theorem witness_DecodeOfEncode :
    (Instr.add .immediate .relative .relative).wf = true ∧ Instr.halt.wf = true := by decide
theorem witness_EncodeOfDecode : decode 22208 = .ok (.equals .relative .relative .relative) := by decide
theorem witness_WordLayout :
    RawInRange 1 ∧ RawInRange 99999 ∧ decode 99 = .ok .halt ∧ decode 1205 = .ok (.jumpIfTrue .relative .immediate) ∧
    (Instr.jumpIfTrue .relative .immediate).modes[1]? = some .immediate := by decide
/-- Each side of each equivalence is met, at the ends of the domain. -/
theorem witness_RangeAndOpcodeErrors :
    decode 0 = .error .rawOutOfRange ∧ decode 100000 = .error .rawOutOfRange ∧
    (RawInRange 100 ∧ arityOfOpcode 0 = none ∧ decode 100 = .error (.badOpcode 0)) := by decide
theorem witness_ModeAndDigitErrors :
    (RawInRange 301 ∧ decode 301 = .error (.badModeDigit 1 3)) ∧
    (RawInRange 90001 ∧ decode 90001 = .error (.badModeDigit 3 9)) ∧
    (RawInRange 10001 ∧ decode 10001 = .error (.modeNotLegalForSlot 3 .immediate)) ∧
    (RawInRange 103 ∧ decode 103 = .error (.modeNotLegalForSlot 1 .immediate)) ∧
    (RawInRange 99999 ∧ decode 99999 = .error .extraneousDigits) := by decide
theorem witness_ValidWordsComplete :
    decode 1 = .ok (.add .position .position .position) ∧ (1 : Cell).toInt ∈ validWords ∧
    (22208 : Cell).toInt ∈ validWords := by decide
theorem witness_HaltHasOneWord :
    (Instr.read .position).wf = true ∧ Instr.read .position ≠ .halt ∧ (Instr.read .relative).wf = true ∧
    encode (.read .relative) ≠ encode (.read .position) := by decide
/-- Sums and products at both ends of the Cell range, and one step outside it. -/
theorem witness_CheckedArithmetic :
    (cadd top 0 = .ok top ∧ cadd bottom 0 = .ok bottom) ∧
    ¬ FitsCell (top.toInt + (1 : Cell).toInt) ∧ ¬ FitsCell (bottom.toInt + (-1 : Cell).toInt) ∧
    (cmul bottom 1 = .ok bottom ∧ cmul top 1 = .ok top) ∧ ¬ FitsCell (bottom.toInt * (-1 : Cell).toInt) := by decide
theorem witness_ReadAccessor :
    ((-1 : Cell).toInt < 0) ∧ (0 ≤ (0 : Cell).toInt ∧ 0 ≤ top.toInt) ∧
    ((at_ [5, 6] 0 0 []).Inv ∧ 0 ≤ (2 : Cell).toInt ∧ (at_ [5, 6] 0 0 []).len ≤ (2 : Cell).toInt.toNat) := by decide
theorem witness_WriteAccessor : ((-1 : Cell).toInt < 0) ∧ (0 ≤ (0 : Cell).toInt) ∧ (0 ≤ top.toInt) := by decide
theorem witness_MemoryFormIsCanonical :
    (at_ [5, 0, 6] 0 0 []).Inv ∧ (at_ [5, 0, 6, 0] 4 1 [7]).Inv ∧
    ∀ a, (at_ [5, 0, 6] 0 0 []).cell a = (at_ [5, 0, 6, 0] 4 1 [7]).cell a :=
  ⟨by decide, by decide, fun _ => rfl⟩
/-- Each clause of the addressing modes, at literals −1 and 0 and at address sums −1, 0 and `CELL_MAX` + 1. -/
theorem witness_AddressingModes :
    ((-1 : Cell).toInt < 0) ∧ (0 ≤ (0 : Cell).toInt) ∧
    ¬ FitsCell ((at_ [] 0 top []).rb.toInt + (1 : Cell).toInt) ∧
    ((-1 : Cell).toInt = (at_ [] 0 4 []).rb.toInt + (-5 : Cell).toInt ∧ (-1 : Cell).toInt < 0) ∧
    ((0 : Cell).toInt = (at_ [] 0 4 []).rb.toInt + (-4 : Cell).toInt ∧ 0 ≤ (0 : Cell).toInt) := by decide
theorem witness_HandBuiltImmediateWrite :
    CodeOk 1 (at_ [103, 7] 0 0 []) ∧
    (CodeOk 3 (at_ [10001, 0, 1, 2] 0 0 []) ∧ SourceOk .position 1 (at_ [10001, 0, 1, 2] 0 0 []) ∧
      SourceOk .relative 2 (at_ [10001, 0, 1, 2] 0 0 [])) := by decide
theorem witness_AddResult :
    0 ≤ (at_ [21201, 1, 0, 4] 0 0 []).ip.toInt ∧ (at_ [21201, 1, 0, 4] 0 0 []).ip.toInt + 4 ≤ cellMax ∧
    SourceOk .relative 1 (at_ [21201, 1, 0, 4] 0 0 []) ∧ SourceOk .immediate 2 (at_ [21201, 1, 0, 4] 0 0 []) ∧
    TargetOk .relative 3 (at_ [21201, 1, 0, 4] 0 0 []) ∧
    FitsCell ((sourceOf .relative 1 (at_ [21201, 1, 0, 4] 0 0 [])).toInt
      + (sourceOf .immediate 2 (at_ [21201, 1, 0, 4] 0 0 [])).toInt) := by decide
theorem witness_MultiplyResult :
    0 ≤ (at_ [2, 0, 4, 4, 99] 0 0 []).ip.toInt ∧ (at_ [2, 0, 4, 4, 99] 0 0 []).ip.toInt + 4 ≤ cellMax ∧
    SourceOk .position 1 (at_ [2, 0, 4, 4, 99] 0 0 []) ∧ SourceOk .position 2 (at_ [2, 0, 4, 4, 99] 0 0 []) ∧
    TargetOk .position 3 (at_ [2, 0, 4, 4, 99] 0 0 []) ∧
    FitsCell ((sourceOf .position 1 (at_ [2, 0, 4, 4, 99] 0 0 [])).toInt
      * (sourceOf .position 2 (at_ [2, 0, 4, 4, 99] 0 0 [])).toInt) := by decide
/-- Both cases of the comparison; the first at equality, the second one step on. -/
theorem witness_LessThanResult :
    (0 ≤ (at_ [1107, 3, 3, 5] 0 0 []).ip.toInt ∧ (at_ [1107, 3, 3, 5] 0 0 []).ip.toInt + 4 ≤ cellMax ∧
      SourceOk .immediate 1 (at_ [1107, 3, 3, 5] 0 0 []) ∧ SourceOk .immediate 2 (at_ [1107, 3, 3, 5] 0 0 []) ∧
      TargetOk .position 3 (at_ [1107, 3, 3, 5] 0 0 []) ∧
      ¬ (sourceOf .immediate 1 (at_ [1107, 3, 3, 5] 0 0 [])).toInt
        < (sourceOf .immediate 2 (at_ [1107, 3, 3, 5] 0 0 [])).toInt) ∧
    (SourceOk .immediate 1 (at_ [1107, 2, 3, 5] 0 0 []) ∧ SourceOk .immediate 2 (at_ [1107, 2, 3, 5] 0 0 []) ∧
      TargetOk .position 3 (at_ [1107, 2, 3, 5] 0 0 []) ∧
      (sourceOf .immediate 1 (at_ [1107, 2, 3, 5] 0 0 [])).toInt
        < (sourceOf .immediate 2 (at_ [1107, 2, 3, 5] 0 0 [])).toInt) := by decide
theorem witness_EqualsResult :
    (0 ≤ (at_ [1108, 3, 3, 5] 0 0 []).ip.toInt ∧ (at_ [1108, 3, 3, 5] 0 0 []).ip.toInt + 4 ≤ cellMax ∧
      SourceOk .immediate 1 (at_ [1108, 3, 3, 5] 0 0 []) ∧ SourceOk .immediate 2 (at_ [1108, 3, 3, 5] 0 0 []) ∧
      TargetOk .position 3 (at_ [1108, 3, 3, 5] 0 0 []) ∧
      (sourceOf .immediate 1 (at_ [1108, 3, 3, 5] 0 0 [])).toInt
        = (sourceOf .immediate 2 (at_ [1108, 3, 3, 5] 0 0 [])).toInt) ∧
    (SourceOk .immediate 1 (at_ [1108, 3, -3, 5] 0 0 []) ∧ SourceOk .immediate 2 (at_ [1108, 3, -3, 5] 0 0 []) ∧
      TargetOk .position 3 (at_ [1108, 3, -3, 5] 0 0 []) ∧
      (sourceOf .immediate 1 (at_ [1108, 3, -3, 5] 0 0 [])).toInt
        ≠ (sourceOf .immediate 2 (at_ [1108, 3, -3, 5] 0 0 [])).toInt) := by decide
theorem witness_ReadWithInput :
    0 ≤ (at_ [203, 2, 99] 0 3 [-4, 6]).ip.toInt ∧ (at_ [203, 2, 99] 0 3 [-4, 6]).ip.toInt + 2 ≤ cellMax ∧
    TargetOk .relative 1 (at_ [203, 2, 99] 0 3 [-4, 6]) ∧ (at_ [203, 2, 99] 0 3 [-4, 6]).inq = [-4, 6] := by decide
theorem witness_ReadWithoutInput :
    0 ≤ (at_ [3, 0, 99] 0 0 []).ip.toInt ∧ (at_ [3, 0, 99] 0 0 []).ip.toInt + 2 ≤ cellMax ∧
    TargetOk .position 1 (at_ [3, 0, 99] 0 0 []) ∧ (at_ [3, 0, 99] 0 0 []).inq = [] := by decide
theorem witness_WriteResult :
    0 ≤ (at_ [104, -42, 99] 0 0 []).ip.toInt ∧ (at_ [104, -42, 99] 0 0 []).ip.toInt + 2 ≤ cellMax ∧
    SourceOk .immediate 1 (at_ [104, -42, 99] 0 0 []) ∧ SourceOk .position 1 (at_ [4, 0, 99] 0 0 []) := by decide
/-- Both cases of the guard. The taken jump needs no room for an advance: its code may end at `CELL_MAX`. -/
theorem witness_JumpIfTrueResult :
    (CodeOk 2 (at_ [1105, -3, 4] 0 0 []) ∧ SourceOk .immediate 1 (at_ [1105, -3, 4] 0 0 []) ∧
      SourceOk .immediate 2 (at_ [1105, -3, 4] 0 0 []) ∧ (sourceOf .immediate 1 (at_ [1105, -3, 4] 0 0 [])).toInt ≠ 0) ∧
    (CodeOk 2 (at_ [5, 4, 0, 99, 0] 0 0 []) ∧ SourceOk .position 1 (at_ [5, 4, 0, 99, 0] 0 0 []) ∧
      SourceOk .position 2 (at_ [5, 4, 0, 99, 0] 0 0 []) ∧ (sourceOf .position 1 (at_ [5, 4, 0, 99, 0] 0 0 [])).toInt = 0 ∧
      (at_ [5, 4, 0, 99, 0] 0 0 []).ip.toInt + 3 ≤ cellMax) ∧
    CodeOk 2 (at_ [] 9223372036854775805 0 []) := by decide
theorem witness_JumpIfFalseResult :
    (CodeOk 2 (at_ [1106, 0, 4] 0 0 []) ∧ SourceOk .immediate 1 (at_ [1106, 0, 4] 0 0 []) ∧
      SourceOk .immediate 2 (at_ [1106, 0, 4] 0 0 []) ∧ (sourceOf .immediate 1 (at_ [1106, 0, 4] 0 0 [])).toInt = 0) ∧
    (CodeOk 2 (at_ [2206, 0, 1, 99] 0 3 []) ∧ SourceOk .relative 1 (at_ [2206, 0, 1, 99] 0 3 []) ∧
      SourceOk .relative 2 (at_ [2206, 0, 1, 99] 0 3 []) ∧ (sourceOf .relative 1 (at_ [2206, 0, 1, 99] 0 3 [])).toInt ≠ 0 ∧
      (at_ [2206, 0, 1, 99] 0 3 []).ip.toInt + 3 ≤ cellMax) := by decide
theorem witness_RelativeBaseOffsetResult :
    0 ≤ (at_ [209, 1, 99, 0, 6] 0 3 []).ip.toInt ∧ (at_ [209, 1, 99, 0, 6] 0 3 []).ip.toInt + 2 ≤ cellMax ∧
    SourceOk .relative 1 (at_ [209, 1, 99, 0, 6] 0 3 []) ∧
    FitsCell ((at_ [209, 1, 99, 0, 6] 0 3 []).rb.toInt + (sourceOf .relative 1 (at_ [209, 1, 99, 0, 6] 0 3 [])).toInt) := by
  decide
theorem witness_HaltResult : 0 ≤ (at_ [99] 0 0 []).ip.toInt ∧ 0 ≤ (at_ [99] top 0 []).ip.toInt := by decide
theorem witness_ResultOverflowTraps :
    (CodeOk 3 (at_ [1101, top, 1, 5] 0 0 []) ∧ SourceOk .immediate 1 (at_ [1101, top, 1, 5] 0 0 []) ∧
      SourceOk .immediate 2 (at_ [1101, top, 1, 5] 0 0 []) ∧ TargetOk .position 3 (at_ [1101, top, 1, 5] 0 0 []) ∧
      ¬ FitsCell ((sourceOf .immediate 1 (at_ [1101, top, 1, 5] 0 0 [])).toInt
        + (sourceOf .immediate 2 (at_ [1101, top, 1, 5] 0 0 [])).toInt)) ∧
    (CodeOk 3 (at_ [1102, bottom, -1, 5] 0 0 []) ∧ SourceOk .immediate 1 (at_ [1102, bottom, -1, 5] 0 0 []) ∧
      SourceOk .immediate 2 (at_ [1102, bottom, -1, 5] 0 0 []) ∧ TargetOk .position 3 (at_ [1102, bottom, -1, 5] 0 0 []) ∧
      ¬ FitsCell ((sourceOf .immediate 1 (at_ [1102, bottom, -1, 5] 0 0 [])).toInt
        * (sourceOf .immediate 2 (at_ [1102, bottom, -1, 5] 0 0 [])).toInt)) ∧
    (CodeOk 1 (at_ [109, -1] 0 bottom []) ∧ SourceOk .immediate 1 (at_ [109, -1] 0 bottom []) ∧
      ¬ FitsCell ((at_ [109, -1] 0 bottom []).rb.toInt + (sourceOf .immediate 1 (at_ [109, -1] 0 bottom [])).toInt)) := by
  decide
theorem witness_UntakenJumpResolvesTarget :
    (CodeOk 2 (at_ [105, 0, -1] 0 0 []) ∧ ((at_ [105, 0, -1] 0 0 []).literal 2).toInt < 0 ∧
      ((at_ [105, 0, -1] 0 0 []).literal 1).toInt = 0) ∧
    (CodeOk 2 (at_ [106, 1, -1] 0 0 []) ∧ ((at_ [106, 1, -1] 0 0 []).literal 2).toInt < 0 ∧
      ((at_ [106, 1, -1] 0 0 []).literal 1).toInt ≠ 0) := by decide
/-- A store, and a write slot that does not resolve. -/
theorem witness_ThreeParameterFrame :
    (∃ t, exec (.add .immediate .immediate .position) (at_ [1101, 1, 2, 4] 0 0 []) = .next t ∧ t.cell 4 = 3 ∧
      targetAddress .position ((at_ [1101, 1, 2, 4] 0 0 []).literal 3) (at_ [1101, 1, 2, 4] 0 0 []) = .ok 4) ∧
    (∃ t, exec (.equals .immediate .immediate .position) (at_ [1108, 1, 2, -1] 0 0 []) = .next t ∧
      targetAddress .position ((at_ [1108, 1, 2, -1] 0 0 []).literal 3) (at_ [1108, 1, 2, -1] 0 0 [])
        = .error (Trap.negativeAddress (-1))) :=
  ⟨⟨_, rfl, by decide, by decide⟩, ⟨_, rfl, by decide⟩⟩
/-- With input, without input, and with a target that does not resolve. -/
theorem witness_ReadFrame :
    (∃ t, exec (.read .position) (at_ [3, 0] 0 0 [9]) = .next t ∧ t.cell 0 = 9 ∧
      targetAddress .position ((at_ [3, 0] 0 0 [9]).literal 1) (at_ [3, 0] 0 0 [9]) = .ok 0) ∧
    (∃ t, exec (.read .position) (at_ [3, 0] 0 0 []) = .next t ∧ t.status = .waitingOnInput ∧
      (at_ [3, 0] 0 0 []).inq = []) ∧
    (∃ t, exec (.read .position) (at_ [3, -1] 0 0 [9]) = .next t ∧
      targetAddress .position ((at_ [3, -1] 0 0 [9]).literal 1) (at_ [3, -1] 0 0 [9])
        = .error (Trap.negativeAddress (-1))) :=
  ⟨⟨_, rfl, by decide, by decide⟩, ⟨_, rfl, by decide, by decide⟩, ⟨_, rfl, by decide⟩⟩
theorem witness_NoStoreFrame :
    (∃ t, exec (.write .immediate) (at_ [104, 7] 0 0 []) = .next t ∧ t.out = [7]) ∧
    (∃ t, exec (.jumpIfTrue .immediate .immediate) (at_ [1105, 1, 9] 0 0 []) = .next t ∧ t.ip = 9) ∧
    (∃ t, exec (.jumpIfFalse .immediate .immediate) (at_ [1106, 1, 9] 0 0 []) = .next t ∧ t.ip = 3) ∧
    (∃ t, exec (.relativeBaseOffset .immediate) (at_ [109, 7] 0 0 []) = .next t ∧ t.rb = 7) ∧
    (∃ t, exec .halt (at_ [99] 0 0 []) = .next t ∧ t.status = .halted 99) :=
  ⟨⟨_, rfl, by decide⟩, ⟨_, rfl, by decide⟩, ⟨_, rfl, by decide⟩, ⟨_, rfl, by decide⟩, ⟨_, rfl, by decide⟩⟩
theorem witness_StepRunsDecodedInstruction :
    (at_ [99] 0 0 []).status = .running ∧ 0 ≤ (at_ [99] 0 0 []).ip.toInt ∧
    decode ((at_ [99] 0 0 []).cell (at_ [99] 0 0 []).ip.toInt.toNat) = .ok .halt := by decide
theorem witness_DecodeFaultTaken :
    (at_ [10001] 0 0 []).status = .running ∧ 0 ≤ (at_ [10001] 0 0 []).ip.toInt ∧
    decode ((at_ [10001] 0 0 []).cell (at_ [10001] 0 0 []).ip.toInt.toNat)
      = .error (.modeNotLegalForSlot 3 .immediate) := by decide
theorem witness_FetchOutsideProgram :
    ((at_ [99] (-1) 0 []).status = .running ∧ (at_ [99] (-1) 0 []).ip.toInt < 0) ∧
    ((at_ [99] 1 0 []).Inv ∧ (at_ [99] 1 0 []).status = .running ∧ 0 ≤ (at_ [99] 1 0 []).ip.toInt ∧
      (at_ [99] 1 0 []).len ≤ (at_ [99] 1 0 []).ip.toInt.toNat) := by decide
theorem witness_ExecRefinesEffect :
    faultOf (.write .position) (at_ [4, -1] 0 0 []) = some (Trap.negativeAddress (-1)) ∧
    faultOf (.write .position) (at_ [4, 0] 0 0 []) = none := by decide
theorem witness_StepTakesFirstFault :
    ((at_ [0] 0 0 []).status = .running ∧ stepFault (at_ [0] 0 0 []) = some (Trap.decodeFault .rawOutOfRange)) ∧
    ((at_ [99] 0 0 []).status = .running ∧ stepFault (at_ [99] 0 0 []) = none) := by decide
theorem witness_FaultsArePrecise :
    ∃ t, step (at_ [4, -9, 99] 0 0 []) = .next t ∧
      t.status = .faulted ⟨.negativeAddress, 0, some 4, some (-9)⟩ := ⟨_, rfl, by decide⟩
/-- A record with an address, one without, and one without the word. -/
theorem witness_FaultRecordFields :
    (∃ t, step (at_ [4, -9, 99] 0 0 []) = .next t ∧
      t.status = .faulted ⟨.negativeAddress, 0, some 4, some (-9)⟩) ∧
    (∃ t, step (at_ [0] 0 0 []) = .next t ∧ t.status = .faulted ⟨.decodeFault .rawOutOfRange, 0, some 0, none⟩) ∧
    (∃ t, step (at_ [] (-1) 0 []) = .next t ∧ t.status = .faulted ⟨.negativeAddress, -1, none, some (-1)⟩) :=
  ⟨⟨_, rfl, by decide⟩, ⟨_, rfl, by decide⟩, ⟨_, rfl, by decide⟩⟩
theorem witness_FaultedIsAbsorbing :
    ({ at_ [99] 0 0 [] with status := .faulted someRecord } : State).status = .faulted someRecord := rfl
theorem witness_HaltValueIsCellZero :
    ∃ t, step (at_ [104, 42, 99] 2 0 []) = .next t ∧ t.status = .halted 104 := ⟨_, rfl, by decide⟩
theorem witness_WaitStateOnlyRunWakes :
    (∃ t, step (at_ [3, 5] 0 0 []) = .next t ∧ t.status = .waitingOnInput) ∧
    ({ at_ [3, 5] 2 0 [] with status := .waitingOnInput } : State).status = .waitingOnInput :=
  ⟨⟨_, rfl, by decide⟩, rfl⟩
theorem witness_ResumePastRead :
    (at_ [3, 5] 0 0 []).status = .running ∧ 0 ≤ (at_ [3, 5] 0 0 []).ip.toInt ∧
    (at_ [3, 5] 0 0 []).ip.toInt + 2 ≤ cellMax ∧
    decode ((at_ [3, 5] 0 0 []).cell (at_ [3, 5] 0 0 []).ip.toInt.toNat) = .ok (.read .position) ∧
    TargetOk .position 1 (at_ [3, 5] 0 0 []) ∧ (at_ [3, 5] 0 0 []).inq = [] := by decide
/-- One step to each of the four ends. -/
theorem witness_StatusTransitions :
    (∃ t, step (at_ [104, 7] 0 0 []) = .next t ∧ t.status = .running) ∧
    (∃ t, step (at_ [3, 5] 0 0 []) = .next t ∧ t.status = .waitingOnInput) ∧
    (∃ t, step (at_ [99] 0 0 []) = .next t ∧ t.status = .halted 99) ∧
    (∃ t, step (at_ [0] 0 0 []) = .next t ∧ t.status.isFaulted = true) :=
  ⟨⟨_, rfl, by decide⟩, ⟨_, rfl, by decide⟩, ⟨_, rfl, by decide⟩, ⟨_, rfl, by decide⟩⟩
theorem witness_RunBudgetIrrelevant :
    ∃ t, runFor 1 (at_ [99] 0 0 []) = .next t ∧ t.status ≠ .running := ⟨_, rfl, by decide⟩
theorem witness_OnlyRelativeBaseOffsetWritesRb :
    (∃ t, exec (.relativeBaseOffset .immediate) (at_ [109, 7] 0 0 []) = .next t ∧ t.rb ≠ (at_ [109, 7] 0 0 []).rb) ∧
    (Mode.relative ∉ (Instr.add .position .immediate .position).modes ∧
      ∀ m, Instr.add .position .immediate .position ≠ .relativeBaseOffset m) ∧
    decode 209 = .ok (.relativeBaseOffset .relative) :=
  ⟨⟨_, rfl, by decide⟩, ⟨by decide, fun _ h => nomatch h⟩, by decide⟩
theorem witness_OnlyReadAndWriteDoInputOutput :
    (∃ t, exec (.read .position) (at_ [3, 0] 0 0 [9, 8]) = .next t ∧ t.inq = [8]) ∧
    (∃ t, exec (.write .immediate) (at_ [104, 7] 0 0 []) = .next t ∧ t.out = [7]) :=
  ⟨⟨_, rfl, by decide⟩, ⟨_, rfl, by decide⟩⟩
/-- Each of the ways `ip` changes, and the fault. -/
theorem witness_IpChangesInThreeWays :
    (∃ t, exec (.write .immediate) (at_ [104, 7] 0 0 []) = .next t ∧ t.ip = 2) ∧
    (∃ t, exec (.jumpIfTrue .immediate .immediate) (at_ [1105, 1, -7] 0 0 []) = .next t ∧ t.ip = -7) ∧
    (∃ t, exec .halt (at_ [99] 0 0 []) = .next t ∧ t.ip = 0) ∧
    (∃ t, exec (.write .position) (at_ [4, -1] 0 0 []) = .next t ∧ t.status.isFaulted = true) :=
  ⟨⟨_, rfl, by decide⟩, ⟨_, rfl, by decide⟩, ⟨_, rfl, by decide⟩, ⟨_, rfl, by decide⟩⟩
theorem witness_InputVisibleOnlyToRead : ∀ m, Instr.halt ≠ .read m := fun _ h => nomatch h
theorem witness_LoadMeetsInvariant : ([104, 42, 99] : List Cell).length ≤ Config.memoryCells := by decide
theorem witness_StepKeepsInvariant :
    (at_ [1101, 2, 3, 9, 99] 0 0 []).Inv ∧ ∃ t, step (at_ [1101, 2, 3, 9, 99] 0 0 []) = .next t ∧ t.len = 10 :=
  ⟨by decide, _, rfl, by decide⟩
theorem witness_RunsGrowMemory :
    (at_ [4, 9, 99] 0 0 []).Inv ∧ ∃ t, Steps 1 (at_ [4, 9, 99] 0 0 []) t ∧ t.len = 10 :=
  ⟨by decide, _, .more (.none _) rfl, by decide⟩
theorem witness_HostActionsKeepInvariant :
    (at_ [99, 5] 0 0 []).Inv ∧ ∃ t, enterRun (at_ [99, 5] 0 0 []) = .next t ∧ t.status = .running :=
  ⟨by decide, _, rfl, by decide⟩

end Sys2Proof.Machine.Tests
end

section
/-! Growth on demand and the read accessor (rules R55 and R57 (b)). -/

namespace Sys2Proof.Machine

/-- The length after a growth to `a`, in the words of rule R57 (b). -/
theorem max_len_succ (len a : Nat) : max len (a + 1) = if len ≤ a then a + 1 else len := by
  split
  · exact Nat.max_eq_right (by omega)
  · exact Nat.max_eq_left (by omega)

/-- Growth by the test that rule R55 states: at or beyond `len`, or below it. -/
theorem State.grow_eq_ite (s : State) (a : Nat) :
    s.grow a = { s with len := if s.len ≤ a then a + 1 else s.len } := by
  rw [State.grow, max_len_succ]

/-- A second growth to the same address changes nothing. -/
@[simp] theorem State.grow_grow_same (s : State) (a : Nat) : (s.grow a).grow a = s.grow a := by
  simp [State.grow]

/-- A read answers the same, and changes nothing, in the state that the same read left (rule R55). -/
theorem memRead_grow_same {a : Cell} (h : 0 ≤ a.toInt) (s : State) :
    memRead a (s.grow (cellAddress a)) = .ok (s.cell (cellAddress a), s.grow (cellAddress a)) := by
  rw [memRead_of_nonneg h, State.grow_cell, State.grow_grow_same]

end Sys2Proof.Machine

open Sys2Proof Sys2Proof.Machine

/-- Settles O10: the first read grows memory to the address, the second finds it grown, and the invariant lists no cell at or
beyond `len`. -/
theorem readAccessor : Obligations.ReadAccessor := by
  unfold Obligations.ReadAccessor
  refine ⟨fun a s hneg => memRead_of_neg hneg s, fun a s hpos => ?_, fun a s hinv _ hlen => State.cell_beyond_len hinv hlen⟩
  exact ⟨s.grow (cellAddress a), memRead_of_nonneg hpos s, s.grow_eq_ite (cellAddress a), memRead_grow_same hpos s⟩

end

section
/-! What the decoder answers: the digits that an accepted word holds (rules R81, R85 to R87), and which errors each of its
parts can give (rules R101 to R105). -/

namespace Sys2Proof

/-- A computation that answers ran each of its two parts to an answer. -/
theorem bind_eq_ok {ε α β : Type} {x : Except ε α} {f : α → Except ε β} {b : β} (h : x >>= f = .ok b) :
    ∃ a, x = .ok a ∧ f a = .ok b := by
  cases x with
  | error e => cases h
  | ok a => exact ⟨a, rfl, h⟩

/-- A number of at most five decimal digits is its low two digits and then the three above (rule R81). -/
theorem eq_sum_of_digits {n : Nat} (h : n ≤ 99999) :
    n = n % 100 + 100 * digit n 2 + 1000 * digit n 3 + 10000 * digit n 4 := by
  simp only [digit]
  omega

/-! The digits of an accepted word. -/

/-- The decimal digits of `raw` from digit `p` up are those of the modes, first mode first (rules R86, R87). -/
def ModesAt (raw : Nat) : Nat → List Mode → Prop
  | _, [] => True
  | p, m :: ms => digit raw p = m.digit ∧ ModesAt raw (p + 1) ms

theorem ModesAt.digit_eq {raw p k : Nat} {ms : List Mode} {m : Mode} (h : ModesAt raw p ms) (hk : ms[k]? = some m) :
    digit raw (k + p) = m.digit := by
  induction ms generalizing p k with
  | nil => simp at hk
  | cons m' ms ih =>
    obtain ⟨hd, htail⟩ := h
    cases k with
    | zero =>
      obtain rfl : m' = m := by simpa using hk
      rwa [Nat.zero_add]
    | succ k =>
      rw [Nat.add_right_comm, Nat.add_assoc]
      exact ih htail (by simpa using hk)

theorem eq_digit_of_modeOfDigit {d : Nat} {m : Mode} (h : modeOfDigit d = some m) : d = m.digit := by
  unfold modeOfDigit at h
  split at h <;> cases h <;> rfl

theorem sourceMode_ok {raw k : Nat} {m : Mode} (h : sourceMode raw k = .ok m) : digit raw (k + 1) = m.digit := by
  unfold sourceMode at h
  split at h
  · cases h
    exact eq_digit_of_modeOfDigit ‹_›
  · cases h

theorem targetMode_ok {raw k : Nat} {m : Mode} (h : targetMode raw k = .ok m) : digit raw (k + 1) = m.digit := by
  obtain ⟨m', hm, h⟩ := bind_eq_ok h
  split at h <;> cases h
  exact sourceMode_ok hm

theorem noExtraneous_ok {raw n : Nat} {i j : Instr} (h : noExtraneous raw n i = .ok j) : j = i := by
  unfold noExtraneous at h
  split at h <;> cases h
  rfl

theorem decodeF3_ok {raw : Nat} {mk : Mode → Mode → Mode → Instr} {i : Instr} (h : decodeF3 raw mk = .ok i) :
    ∃ m1 m2 m3, i = mk m1 m2 m3 ∧ ModesAt raw 2 [m1, m2, m3] := by
  obtain ⟨m1, h1, h⟩ := bind_eq_ok h
  obtain ⟨m2, h2, h⟩ := bind_eq_ok h
  obtain ⟨m3, h3, h⟩ := bind_eq_ok h
  exact ⟨m1, m2, m3, noExtraneous_ok h, sourceMode_ok h1, sourceMode_ok h2, targetMode_ok h3, trivial⟩

theorem decodeF2_ok {raw : Nat} {mk : Mode → Mode → Instr} {i : Instr} (h : decodeF2 raw mk = .ok i) :
    ∃ m1 m2, i = mk m1 m2 ∧ ModesAt raw 2 [m1, m2] := by
  obtain ⟨m1, h1, h⟩ := bind_eq_ok h
  obtain ⟨m2, h2, h⟩ := bind_eq_ok h
  exact ⟨m1, m2, noExtraneous_ok h, sourceMode_ok h1, sourceMode_ok h2, trivial⟩

theorem decodeF1Source_ok {raw : Nat} {mk : Mode → Instr} {i : Instr} (h : decodeF1Source raw mk = .ok i) :
    ∃ m1, i = mk m1 ∧ ModesAt raw 2 [m1] := by
  obtain ⟨m1, h1, h⟩ := bind_eq_ok h
  exact ⟨m1, noExtraneous_ok h, sourceMode_ok h1, trivial⟩

theorem decodeF1Target_ok {raw : Nat} {mk : Mode → Instr} {i : Instr} (h : decodeF1Target raw mk = .ok i) :
    ∃ m1, i = mk m1 ∧ ModesAt raw 2 [m1] := by
  obtain ⟨m1, h1, h⟩ := bind_eq_ok h
  exact ⟨m1, noExtraneous_ok h, targetMode_ok h1, trivial⟩

/-- An accepted word holds the opcode and the modes of its instruction, whatever the format. -/
theorem decodeDigits_ok {raw : Nat} {i : Instr} (h : decodeDigits raw = .ok i) :
    raw % 100 = i.opcode ∧ ModesAt raw 2 i.modes := by
  unfold decodeDigits at h
  split at h
  case h_1 hop | h_2 hop | h_7 hop | h_8 hop =>
    obtain ⟨m1, m2, m3, rfl, hm⟩ := decodeF3_ok h
    exact ⟨hop, hm⟩
  case h_5 hop | h_6 hop =>
    obtain ⟨m1, m2, rfl, hm⟩ := decodeF2_ok h
    exact ⟨hop, hm⟩
  case h_4 hop | h_9 hop =>
    obtain ⟨m1, rfl, hm⟩ := decodeF1Source_ok h
    exact ⟨hop, hm⟩
  case h_3 hop =>
    obtain ⟨m1, rfl, hm⟩ := decodeF1Target_ok h
    exact ⟨hop, hm⟩
  case h_10 hop =>
    obtain rfl := noExtraneous_ok h
    exact ⟨hop, trivial⟩
  case h_11 => cases h

/-! The errors of each part. -/

/-- The errors that a word with a recognised opcode can still give: a mode or a digit above the opcode is wrong (rules R103,
R104, R105). -/
def DecodeError.AboveOpcode : DecodeError → Prop
  | .rawOutOfRange => False
  | .badOpcode _ => False
  | .badModeDigit _ _ => True
  | .modeNotLegalForSlot _ _ => True
  | .extraneousDigits => True

/-- Every error of this part of the decoder is about the digits above the opcode. -/
def FailsAboveOpcode {α : Type} (x : Except DecodeError α) : Prop :=
  ∀ e, x = .error e → e.AboveOpcode

theorem FailsAboveOpcode.bind {α β : Type} {x : Except DecodeError α} {f : α → Except DecodeError β}
    (hx : FailsAboveOpcode x) (hf : ∀ a, FailsAboveOpcode (f a)) : FailsAboveOpcode (x >>= f) := by
  intro e h
  cases x with
  | error e' =>
    cases h
    exact hx e rfl
  | ok a => exact hf a e h

theorem sourceMode_failsAboveOpcode (raw k : Nat) : FailsAboveOpcode (sourceMode raw k) := by
  intro e h
  unfold sourceMode at h
  split at h <;> cases h
  trivial

theorem targetMode_failsAboveOpcode (raw k : Nat) : FailsAboveOpcode (targetMode raw k) := by
  refine (sourceMode_failsAboveOpcode raw k).bind fun m e h => ?_
  split at h <;> cases h
  trivial

theorem noExtraneous_failsAboveOpcode (raw n : Nat) (i : Instr) : FailsAboveOpcode (noExtraneous raw n i) := by
  intro e h
  unfold noExtraneous at h
  split at h <;> cases h
  trivial

theorem decodeF3_failsAboveOpcode (raw : Nat) (mk : Mode → Mode → Mode → Instr) : FailsAboveOpcode (decodeF3 raw mk) :=
  (sourceMode_failsAboveOpcode raw 1).bind fun _ => (sourceMode_failsAboveOpcode raw 2).bind fun _ =>
    (targetMode_failsAboveOpcode raw 3).bind fun _ => noExtraneous_failsAboveOpcode raw 3 _

theorem decodeF2_failsAboveOpcode (raw : Nat) (mk : Mode → Mode → Instr) : FailsAboveOpcode (decodeF2 raw mk) :=
  (sourceMode_failsAboveOpcode raw 1).bind fun _ => (sourceMode_failsAboveOpcode raw 2).bind fun _ =>
    noExtraneous_failsAboveOpcode raw 2 _

theorem decodeF1Source_failsAboveOpcode (raw : Nat) (mk : Mode → Instr) : FailsAboveOpcode (decodeF1Source raw mk) :=
  (sourceMode_failsAboveOpcode raw 1).bind fun _ => noExtraneous_failsAboveOpcode raw 1 _

theorem decodeF1Target_failsAboveOpcode (raw : Nat) (mk : Mode → Instr) : FailsAboveOpcode (decodeF1Target raw mk) :=
  (targetMode_failsAboveOpcode raw 1).bind fun _ => noExtraneous_failsAboveOpcode raw 1 _

end Sys2Proof

namespace Sys2Proof.Machine

/-- The opcodes of rule R90. -/
theorem arityOfOpcode_eq_none_iff {op : Nat} : arityOfOpcode op = none ↔ op ∉ [1, 2, 3, 4, 5, 6, 7, 8, 9, 99] := by
  simp only [arityOfOpcode, List.mem_cons, List.not_mem_nil, or_false]
  split_ifs <;> simp only [true_iff, false_iff] <;> omega

/-- The opcode map in two cases: the opcode is unknown and the word is rejected for it, or it is known and only the digits
above it can be at fault. -/
theorem decodeDigits_cases (raw : Nat) :
    (arityOfOpcode (raw % 100) = none ∧ decodeDigits raw = .error (.badOpcode (raw % 100))) ∨
    (arityOfOpcode (raw % 100) ≠ none ∧ FailsAboveOpcode (decodeDigits raw)) := by
  unfold decodeDigits
  split
  case h_1 hop | h_2 hop | h_7 hop | h_8 hop =>
    exact .inr ⟨by rw [hop]; decide, decodeF3_failsAboveOpcode raw _⟩
  case h_5 hop | h_6 hop =>
    exact .inr ⟨by rw [hop]; decide, decodeF2_failsAboveOpcode raw _⟩
  case h_4 hop | h_9 hop =>
    exact .inr ⟨by rw [hop]; decide, decodeF1Source_failsAboveOpcode raw _⟩
  case h_3 hop =>
    exact .inr ⟨by rw [hop]; decide, decodeF1Target_failsAboveOpcode raw _⟩
  case h_10 hop =>
    exact .inr ⟨by rw [hop]; decide, noExtraneous_failsAboveOpcode raw 0 _⟩
  case h_11 =>
    refine .inl ⟨arityOfOpcode_eq_none_iff.mpr ?_, rfl⟩
    simp_all

theorem decodeDigits_ne_rawOutOfRange (raw : Nat) : decodeDigits raw ≠ .error .rawOutOfRange := by
  intro h
  obtain ⟨_, hbad⟩ | ⟨_, habove⟩ := decodeDigits_cases raw
  · rw [hbad] at h
    cases h
  · exact habove _ h

theorem decodeDigits_badOpcode_iff {raw op : Nat} :
    decodeDigits raw = .error (.badOpcode op) ↔ op = raw % 100 ∧ arityOfOpcode op = none := by
  obtain ⟨hnone, hbad⟩ | ⟨hsome, habove⟩ := decodeDigits_cases raw
  · rw [hbad]
    constructor
    · intro h
      cases h
      exact ⟨rfl, hnone⟩
    · rintro ⟨rfl, _⟩
      rfl
  · constructor
    · exact fun h => (habove _ h).elim
    · rintro ⟨rfl, hnone⟩
      exact absurd hnone hsome

/-- Inside the domain of rule R83 the decoder goes by the digits; outside it answers the one error of rule R101. -/
theorem decode_cases (raw : Cell) :
    (¬ RawInRange raw ∧ decode raw = .error .rawOutOfRange) ∨
    (RawInRange raw ∧ decode raw = decodeDigits raw.toInt.toNat) := by
  unfold decode Config.maxRaw
  split
  · exact .inl ⟨by omega, rfl⟩
  · exact .inr ⟨by omega, rfl⟩

theorem decodeDigits_of_decode_ok {raw : Cell} {i : Instr} (h : decode raw = .ok i) :
    decodeDigits raw.toInt.toNat = .ok i := by
  obtain ⟨_, herr⟩ | ⟨_, hdig⟩ := decode_cases raw
  · rw [herr] at h
    cases h
  · rwa [hdig] at h

theorem decode_rawOutOfRange_iff {raw : Cell} : decode raw = .error .rawOutOfRange ↔ ¬ RawInRange raw := by
  obtain ⟨hout, herr⟩ | ⟨hin, hdig⟩ := decode_cases raw
  · exact iff_of_true herr hout
  · rw [hdig]
    exact iff_of_false (decodeDigits_ne_rawOutOfRange _) (not_not.mpr hin)

theorem decode_badOpcode_iff {raw : Cell} {op : Nat} :
    decode raw = .error (.badOpcode op) ↔
      RawInRange raw ∧ op = raw.toInt.toNat % 100 ∧ arityOfOpcode op = none := by
  obtain ⟨hout, herr⟩ | ⟨hin, hdig⟩ := decode_cases raw
  · rw [herr]
    exact iff_of_false (nomatch ·) fun h => hout h.1
  · rw [hdig, decodeDigits_badOpcode_iff]
    exact (and_iff_right hin).symm

end Sys2Proof.Machine

open Sys2Proof Sys2Proof.Machine

/-- Settles O3: the first part is the decimal expansion, the second what every accepted word holds. -/
theorem wordLayout : Obligations.WordLayout := by
  unfold Obligations.WordLayout
  constructor
  · intro raw hr
    have hsum := eq_sum_of_digits (n := raw.toInt.toNat) (by omega)
    omega
  · intro raw i h
    obtain ⟨hop, hmodes⟩ := decodeDigits_ok (decodeDigits_of_decode_ok h)
    exact ⟨hop, fun k m hk => hmodes.digit_eq hk⟩

/-- Settles O4: the range is tested first, then the opcode, and a word that passes both is rejected only for the digits above
its opcode. -/
theorem rangeAndOpcodeErrors : Obligations.RangeAndOpcodeErrors := by
  unfold Obligations.RangeAndOpcodeErrors
  refine ⟨fun raw => decode_rawOutOfRange_iff.trans ?_, fun raw op => decode_badOpcode_iff⟩
  omega

end

section
/-! What an instruction and a step can do, said once: the first fault of rule R207 is taken, or the effect happens whole
(rule R120). -/

namespace Sys2Proof.Machine

/-- A fault in the first part is a fault of the whole, whatever follows. -/
theorem orElseOk_firstTrap_append {α : Type} (ts us : List (Option Trap)) (r : α) :
    orElseOk (firstTrap (ts ++ us)) r = orElseOk (firstTrap ts) () >>= fun _ => orElseOk (firstTrap us) r := by
  induction ts with
  | nil => rfl
  | cons t ts ih =>
    cases t with
    | some t => rfl
    | none => exact ih

theorem orElseOk_bind {α β : Type} (t : Option Trap) (r : α) (f : α → Attempt β) :
    (orElseOk t r >>= f) = orElseOk t () >>= fun _ => f r := by
  cases t <;> rfl

/-- The checks of one computation, then those of the next one on its answer, are one list of checks. -/
theorem orElseOk_firstTrap_bind {α β : Type} (ts us : List (Option Trap)) (r : α) {f : α → Attempt β} {b : β}
    (hf : f r = orElseOk (firstTrap us) b) :
    (orElseOk (firstTrap ts) r >>= f) = orElseOk (firstTrap (ts ++ us)) b := by
  rw [orElseOk_bind, hf, orElseOk_firstTrap_append]

@[simp] theorem firstTrap_singleton (t : Option Trap) : firstTrap [t] = t := by
  cases t <;> rfl

theorem narrow_eq_orElseOk (x : Int) : narrow x = orElseOk (firstTrap [resultTrap x]) (Cell.ofInt x) := by
  rw [narrow_eq, firstTrap_singleton]
  rfl

/-- The advance that ends an instruction, and what is done with the address after it (rule R135). -/
theorem advance_bind {α : Type} {n : Nat} (hn : n < 100) (s : State) (f : Cell → α) :
    (advance n s >>= fun nip => .ok (f nip)) =
      orElseOk (firstTrap [resultTrap (s.ip.toInt + n)]) (f (Cell.ofInt (s.ip.toInt + n))) := by
  rw [advance, cadd, toInt_ofNat_small hn, narrow_eq_orElseOk, orElseOk_bind]
  cases resultTrap (s.ip.toInt + n) <;> rfl

/-- The shared execute phase of rules R150 and R160 for an operation whose own checks are `ts` and whose result is `v`. -/
theorem storeResult_eq_orElseOk {f : Cell → Cell → Attempt Cell} {m1 m2 m3 : Mode} {s : State}
    {ts : List (Option Trap)} {v : Cell} (hf : f (sourceOf m1 1 s) (sourceOf m2 2 s) = orElseOk (firstTrap ts) v) :
    storeResult f m1 m2 m3 s =
      orElseOk (firstTrap ([codeTrap 3 s, sourceTrap m1 1 s, sourceTrap m2 2 s, targetTrap m3 3 s] ++
        (ts ++ [resultTrap (s.ip.toInt + 4)]))) (afterStore m1 m2 m3 v s) := by
  rw [storeResult_eq, hf]
  refine orElseOk_firstTrap_bind _ _ () (orElseOk_firstTrap_bind _ _ v ?_)
  rw [firstTrap_singleton]

/-- The shared execute phase of rule R180 for a guard that decides `p` of the first source. -/
theorem jumpWhen_eq_orElseOk {guard : Cell → Bool} {m1 m2 : Mode} {s : State} {p : Prop} [Decidable p]
    (hg : guard (sourceOf m1 1 s) = decide p) :
    jumpWhen guard m1 m2 s =
      orElseOk (firstTrap ([codeTrap 2 s, sourceTrap m1 1 s, sourceTrap m2 2 s] ++
        [if p then none else resultTrap (s.ip.toInt + 3)]))
        (afterJump m1 m2 (if p then sourceOf m2 2 s else Cell.ofInt (s.ip.toInt + 3)) s) := by
  rw [jumpWhen_eq, hg]
  refine orElseOk_firstTrap_bind _ _ () ?_
  rw [firstTrap_singleton]
  by_cases hp : p <;> simp [hp]

/-- Rule R171: all that Read can do. -/
theorem execRead_eq (m1 : Mode) (s : State) :
    execRead m1 s = commit s (orElseOk (faultOf (.read m1) s) (effectOf (.read m1) s)) := by
  rw [execRead, operandsT_eq]
  refine congrArg (commit s) (orElseOk_firstTrap_bind _ _ _ ?_)
  refine (advance_bind (by omega) _ _).trans (congrArg (orElseOk _) ?_)
  simp only [effectOf]
  split
  next hq =>
    rw [takeInput_nil (by exact hq)]
    rfl
  next v rest hq =>
    rw [takeInput_cons (by exact hq)]
    rw [lenAfter_append]
    rfl

/-- Rule R172: all that Write can do. -/
theorem execWrite_eq (m1 : Mode) (s : State) :
    execWrite m1 s = commit s (orElseOk (faultOf (.write m1) s) (effectOf (.write m1) s)) := by
  rw [execWrite, operandsS_eq]
  exact congrArg (commit s) (orElseOk_firstTrap_bind _ _ _ (advance_bind (by omega) _ _))

/-- Rule R191: all that RelativeBaseOffset can do. -/
theorem execRelativeBaseOffset_eq (m1 : Mode) (s : State) :
    execRelativeBaseOffset m1 s =
      commit s (orElseOk (faultOf (.relativeBaseOffset m1) s) (effectOf (.relativeBaseOffset m1) s)) := by
  rw [execRelativeBaseOffset, operandsS_eq]
  refine congrArg (commit s) (orElseOk_firstTrap_bind _ _ _ ?_)
  simp only [cadd, narrow_eq_orElseOk]
  exact orElseOk_firstTrap_bind _ _ _ (advance_bind (by omega) _ _)

/-- Rule R196: all that Halt can do. -/
theorem execHalt_eq (s : State) : execHalt s = commit s (orElseOk (faultOf .halt s) (effectOf .halt s)) := by
  have hread : memRead 0 (s.touch (codeCells 0 s)) = .ok (s.cell 0, s.touch (codeCells 0 s ++ [0])) := by
    rw [memRead_of_nonneg (by decide), State.grow_touch]
    rfl
  rw [execHalt, fetch0_eq]
  refine congrArg (commit s) ?_
  rw [faultOf, firstTrap_singleton]
  cases codeTrap 0 s with
  | some t => rfl
  | none =>
    simp only [bind_ok, hread]
    rfl

/-- All that an instruction can do: the first fault it meets in the order of rule R207 is taken, and without one its effect
happens whole. -/
theorem exec_eq (i : Instr) (s : State) : exec i s = commit s (orElseOk (faultOf i s) (effectOf i s)) := by
  cases i with
  | add m1 m2 m3 => exact congrArg (commit s) (storeResult_eq_orElseOk (ts := [resultTrap _]) (narrow_eq_orElseOk _))
  | multiply m1 m2 m3 => exact congrArg (commit s) (storeResult_eq_orElseOk (ts := [resultTrap _]) (narrow_eq_orElseOk _))
  | read m1 => exact execRead_eq m1 s
  | write m1 => exact execWrite_eq m1 s
  | jumpIfTrue m1 m2 => exact congrArg (commit s) (jumpWhen_eq_orElseOk (isTrue_eq _))
  | jumpIfFalse m1 m2 => exact congrArg (commit s) (jumpWhen_eq_orElseOk (by simp [isTrue_eq]))
  | lessThan m1 m2 m3 =>
    refine congrArg (commit s) (storeResult_eq_orElseOk (ts := []) ?_)
    simp [lessCell, truthCell]
  | equals m1 m2 m3 =>
    refine congrArg (commit s) (storeResult_eq_orElseOk (ts := []) ?_)
    simp [equalCell, truthCell, Cell.eq_iff_toInt]
  | relativeBaseOffset m1 => exact execRelativeBaseOffset_eq m1 s
  | halt => exact execHalt_eq s

/-- Every instruction answers a next state: the fault it meets first, taken, or its effect. -/
theorem exec_cases {i : Instr} {s t : State} (h : exec i s = .next t) :
    (∃ tr, faultOf i s = some tr ∧ t = raise tr s) ∨ (faultOf i s = none ∧ t = effectOf i s) := by
  rw [exec_eq] at h
  cases hf : faultOf i s with
  | some tr => rw [hf] at h; cases h; exact .inl ⟨tr, rfl, rfl⟩
  | none => rw [hf] at h; cases h; exact .inr ⟨rfl, rfl⟩

/-- Rules R121 and R122: all that the fetch and the decoding can do. -/
theorem fetchDecode_cases (s : State) :
    (∃ tr, stepFault s = some tr ∧ fetchDecode s = .error tr) ∨
    (∃ i, decode (s.cell (cellAddress s.ip)) = .ok i ∧ stepFault s = faultOf i s ∧ fetchDecode s = .ok i) := by
  unfold fetchDecode stepFault
  rw [fetchWord_eq]
  by_cases hneg : s.ip.toInt < 0
  · simp [hneg]
  · cases hd : decode (s.cell (cellAddress s.ip)) <;> simp [hneg, hd]

/-- All that a step can do: a running machine takes the first fault it meets, or decodes the word at `ip` and has that
instruction's whole effect (rules R120 and R207). -/
theorem step_cases {s t : State} (h : step s = .next t) :
    s.status = .running ∧
      ((∃ tr, stepFault s = some tr ∧ t = raise tr s) ∨
        (∃ i, stepFault s = none ∧ decode (s.cell (cellAddress s.ip)) = .ok i ∧ t = effectOf i s)) := by
  have hrun := running_of_step h
  refine ⟨hrun, ?_⟩
  rw [step, hrun] at h
  obtain ⟨tr, hf, hfd⟩ | ⟨i, hd, hf, hfd⟩ := fetchDecode_cases s
  · rw [hfd] at h
    cases h
    exact .inl ⟨tr, hf, rfl⟩
  · rw [hfd] at h
    rw [hf]
    exact (exec_cases h).imp_right fun ⟨hnone, ht⟩ => ⟨i, hnone, hd, ht⟩

end Sys2Proof.Machine
end

section
/-! The halted status: what enters it, and what leaves it alone (rules R27, R145 and R196). -/

namespace Sys2Proof.Machine

/-- Halt alone changes the status to halted, and it captures cell 0. -/
theorem effectOf_halted {i : Instr} {s : State} {v : Cell} (hs : s.status = .running)
    (h : (effectOf i s).status = .halted v) : i = .halt ∧ v = s.cell 0 := by
  cases i with
  | halt => cases h; exact ⟨rfl, rfl⟩
  | read m1 =>
    cases hq : s.inq with
    | nil => simp [effectOf, hq] at h
    | cons w rest => simp [effectOf, hq, hs] at h
  | _ => simp [effectOf, afterStore, afterJump, hs] at h

/-- A step that ends halted ran a Halt (rules R143 and R196). -/
theorem halt_of_step_halted {s t : State} {v : Cell} (h : step s = .next t) (hv : t.status = .halted v) :
    decode (s.cell (cellAddress s.ip)) = .ok .halt ∧ v = s.cell 0 ∧ t = effectOf .halt s := by
  obtain ⟨hrun, ⟨tr, -, rfl⟩ | ⟨i, -, hd, rfl⟩⟩ := step_cases h
  · cases hv
  · obtain ⟨rfl, hcell⟩ := effectOf_halted hrun hv
    exact ⟨hd, hcell, rfl⟩

/-- Halt writes no cell. -/
@[simp] theorem effectOf_halt_cell (s : State) (a : Nat) : (effectOf .halt s).cell a = s.cell a := rfl

/-- A halted machine takes no step (rule R145). -/
theorem step_of_halted {s : State} {v : Cell} (h : s.status = .halted v) : step s = .refused (.halted v) := by
  rw [step, h]
  rfl

/-- A halted machine refuses `run` (rule R145 and the spec's decision D15). -/
theorem enterRun_of_halted {s : State} {v : Cell} (h : s.status = .halted v) : enterRun s = .refused (.halted v) := by
  rw [enterRun, h]

end Sys2Proof.Machine

open Sys2Proof Sys2Proof.Machine

/-- Settles O40: only Halt ends a step halted, and its effect captures cell 0 and writes no cell. From there no step is
taken, and the only host action that sets a status is the entry of `run`, which is refused. -/
theorem haltValueIsCellZero : Obligations.HaltValueIsCellZero := by
  unfold Obligations.HaltValueIsCellZero
  intro s t v hstep hv
  obtain ⟨-, hcell, ht⟩ := halt_of_step_halted hstep hv
  have hcell' : t.cell 0 = v := by rw [ht, effectOf_halt_cell, hcell]
  have hstop : ∀ u, step t ≠ .next u := fun u hu => by
    rw [step_of_halted hv] at hu
    cases hu
  exact ⟨hcell, hcell', hstop, enterRun_of_halted hv, fun a w => (t.patch_status a w).trans hv, fun _ => hv,
    fun _ _ => hv, hv⟩

end

section
/-! The relative base: what writes it, what it is used for, and the words of the instruction that moves it (rules R93 and R190). -/

namespace Sys2Proof

/-- An accepted word has no digit above its mode digits (rule R88). -/
theorem div_eq_zero_of_noExtraneous_ok {raw n : Nat} {i j : Instr} (h : noExtraneous raw n i = .ok j) :
    raw / 10 ^ (n + 2) = 0 := by
  unfold noExtraneous at h
  split at h
  · assumption
  · cases h

theorem decodeDigits_of_mod_eq_nine {raw : Nat} (h : raw % 100 = 9) :
    decodeDigits raw = decodeF1Source raw .relativeBaseOffset := by
  simp only [decodeDigits, h]

/-- The one parameter of RelativeBaseOffset leaves no digit above the third (rules R82, R88). -/
theorem relativeBaseOffset_digits {raw : Nat} {m : Mode} (h : decodeDigits raw = .ok (.relativeBaseOffset m)) :
    raw = 9 + 100 * m.digit := by
  obtain ⟨hop, hmode, -⟩ := decodeDigits_ok h
  change raw % 100 = 9 at hop
  rw [decodeDigits_of_mod_eq_nine hop] at h
  obtain ⟨_, _, h⟩ := bind_eq_ok h
  have habove := div_eq_zero_of_noExtraneous_ok h
  rw [← hmode, digit]
  omega

end Sys2Proof

namespace Sys2Proof.Machine

/-- The valid words of RelativeBaseOffset, one for each mode (rule R93). -/
theorem decode_relativeBaseOffset_iff {raw : Cell} :
    (∃ m, decode raw = .ok (.relativeBaseOffset m)) ↔ raw = 9 ∨ raw = 109 ∨ raw = 209 := by
  constructor
  · rintro ⟨m, h⟩
    have hdigits := relativeBaseOffset_digits (decodeDigits_of_decode_ok h)
    have hraw : raw = Cell.ofInt (9 + 100 * m.digit : Nat) := by
      rw [← hdigits, Int.toNat_of_nonneg (by omega), Cell.ofInt_toInt]
    cases m with
    | position => exact .inl hraw
    | immediate => exact .inr (.inl hraw)
    | relative => exact .inr (.inr hraw)
  · rintro (rfl | rfl | rfl)
    · exact ⟨.position, by decide⟩
    · exact ⟨.immediate, by decide⟩
    · exact ⟨.relative, by decide⟩

/-! What a slot that is not Relative resolves to does not depend on `rb` (rules R127, R129, R130). -/

@[simp] theorem codeTrap_setRb (n : Nat) (s : State) (c : Cell) : codeTrap n (s.setRb c) = codeTrap n s := rfl
@[simp] theorem codeCells_setRb (n : Nat) (s : State) (c : Cell) : codeCells n (s.setRb c) = codeCells n s := rfl

@[simp] theorem source_setRb {m : Mode} (h : m ≠ .relative) (k : Nat) (s : State) (c : Cell) :
    sourceOf m k (s.setRb c) = sourceOf m k s ∧ sourceCells m k (s.setRb c) = sourceCells m k s ∧
      sourceTrap m k (s.setRb c) = sourceTrap m k s := by
  cases m with
  | relative => exact absurd rfl h
  | position | immediate => exact ⟨rfl, rfl, rfl⟩

@[simp] theorem target_setRb {m : Mode} (h : m ≠ .relative) (k : Nat) (s : State) (c : Cell) :
    targetOf m k (s.setRb c) = targetOf m k s ∧ targetTrap m k (s.setRb c) = targetTrap m k s := by
  cases m with
  | relative => exact absurd rfl h
  | position | immediate => exact ⟨rfl, rfl⟩

theorem afterStore_setRb {m1 m2 m3 : Mode} (h1 : m1 ≠ .relative) (h2 : m2 ≠ .relative) (h3 : m3 ≠ .relative)
    (v : Cell) (s : State) (c : Cell) : afterStore m1 m2 m3 v (s.setRb c) = (afterStore m1 m2 m3 v s).setRb c := by
  simp only [afterStore, source_setRb h1, source_setRb h2, target_setRb h3, codeCells_setRb]
  rfl

theorem afterJump_setRb {m1 m2 : Mode} (h1 : m1 ≠ .relative) (h2 : m2 ≠ .relative) (d : Cell) (s : State) (c : Cell) :
    afterJump m1 m2 d (s.setRb c) = (afterJump m1 m2 d s).setRb c := by
  simp only [afterJump, source_setRb h1, source_setRb h2, codeCells_setRb]
  rfl

/-! Rule R190 for a whole instruction: what it checks, what it does, and what `exec` answers. -/

section
variable {i : Instr} (hi : ∀ m, i ≠ .relativeBaseOffset m)
include hi

/-- No other instruction writes `rb`. -/
theorem effectOf_rb (s : State) : (effectOf i s).rb = s.rb := by
  cases i with
  | relativeBaseOffset m1 => exact absurd rfl (hi m1)
  | read m1 => cases hq : s.inq <;> simp [effectOf, hq]
  | _ => rfl

variable (hmodes : ∀ m ∈ i.modes, m ≠ .relative)
include hmodes

theorem faultOf_setRb (s : State) (c : Cell) : faultOf i (s.setRb c) = faultOf i s := by
  cases i with
  | relativeBaseOffset m1 => exact absurd rfl (hi m1)
  | _ =>
    simp only [Instr.modes, List.forall_mem_cons] at hmodes
    simp [faultOf, hmodes]

theorem effectOf_setRb (s : State) (c : Cell) : effectOf i (s.setRb c) = (effectOf i s).setRb c := by
  cases i with
  | relativeBaseOffset m1 => exact absurd rfl (hi m1)
  | halt => rfl
  | write m1 =>
    simp only [effectOf, source_setRb (hmodes m1 (.head _)), codeCells_setRb]
    rfl
  | read m1 =>
    simp only [effectOf, target_setRb (hmodes m1 (.head _)), codeCells_setRb, State.setRb_inq]
    cases s.inq <;> rfl
  | _ =>
    simp only [Instr.modes, List.forall_mem_cons] at hmodes
    simp [effectOf, hmodes, afterStore_setRb, afterJump_setRb]

theorem exec_setRb (s : State) (c : Cell) : exec i (s.setRb c) = mapNext (fun t => t.setRb c) (exec i s) := by
  rw [exec_eq, exec_eq, faultOf_setRb hi hmodes, effectOf_setRb hi hmodes]
  cases faultOf i s <;> rfl

end

/-- No fault is met just where every check passes. -/
theorem firstTrap_eq_none_iff {ts : List (Option Trap)} : firstTrap ts = none ↔ ∀ t ∈ ts, t = none := by
  induction ts with
  | nil => simp
  | cons t ts ih => cases t <;> simp [ih]

/-- RelativeBaseOffset advances by 2, or it meets a fault first. -/
theorem effectOf_relativeBaseOffset_ip {m : Mode} {s : State} (h : faultOf (.relativeBaseOffset m) s = none) :
    (effectOf (.relativeBaseOffset m) s).ip.toInt = s.ip.toInt + 2 :=
  Cell.toInt_ofInt (resultTrap_eq_none.mp (firstTrap_eq_none_iff.mp h _ (by simp)))

end Sys2Proof.Machine

open Sys2Proof Sys2Proof.Machine

/-- Settles O45: an instruction takes a fault, which leaves `rb`, or has its effect, and another `rb` changes neither where no
slot resolves through it. The words are the three whose low digits are 9 and whose third is a mode. -/
theorem onlyRelativeBaseOffsetWritesRb : Obligations.OnlyRelativeBaseOffsetWritesRb := by
  unfold Obligations.OnlyRelativeBaseOffsetWritesRb
  refine ⟨fun i s t h hrb => ?_, fun i s c hmodes hi => ?_, fun m s t h => ?_, fun m => rfl,
    fun raw => decode_relativeBaseOffset_iff⟩
  · by_contra hi
    obtain ⟨tr, -, rfl⟩ | ⟨-, rfl⟩ := exec_cases h
    · exact hrb (raise_rb tr s)
    · exact hrb (effectOf_rb (not_exists.mp hi) s)
  · exact exec_setRb hi (fun m hm hrel => hmodes (hrel ▸ hm)) s c
  · obtain ⟨tr, -, rfl⟩ | ⟨hnone, rfl⟩ := exec_cases h
    · exact .inr ⟨faultRecord tr s, rfl⟩
    · exact .inl (effectOf_relativeBaseOffset_ip hnone)

end

section
/-! Halt against the other instructions: its one word, and a second word for each of the others (rules R93 and R195). -/

namespace Sys2Proof

theorem decodeDigits_of_mod_eq_ninety_nine {raw : Nat} (h : raw % 100 = 99) :
    decodeDigits raw = noExtraneous raw 0 .halt := by
  simp only [decodeDigits, h]

/-- Halt has no mode digit, so every digit above its opcode is 0 (rules R82, R88). -/
theorem decodeDigits_halt_iff {raw : Nat} : decodeDigits raw = .ok .halt ↔ raw = 99 := by
  constructor
  · intro h
    obtain ⟨hop, -⟩ := decodeDigits_ok h
    change raw % 100 = 99 at hop
    rw [decodeDigits_of_mod_eq_ninety_nine hop] at h
    have habove := div_eq_zero_of_noExtraneous_ok h
    omega
  · rintro rfl
    rfl

theorem decode_halt_iff {raw : Cell} : decode raw = .ok .halt ↔ raw = 99 := by
  constructor
  · intro h
    have hdigits := decodeDigits_halt_iff.mp (Machine.decodeDigits_of_decode_ok h)
    have hval : raw.toInt = 99 := by omega
    exact Cell.eq_iff_toInt.mpr hval
  · rintro rfl
    rfl

theorem Instr.arity_eq_zero_iff {i : Instr} : i.arity = 0 ↔ i = .halt := by
  cases i <;> simp [Instr.arity]

/-! Encoded words differ where their digits do. -/

theorem encodingShape (i : Instr) : Laws.EncodingShape.Statement i := by
  cases i with
  | add m1 m2 m3 => exact Laws.EncodingShape.add m1 m2 m3
  | multiply m1 m2 m3 => exact Laws.EncodingShape.multiply m1 m2 m3
  | read m1 => exact Laws.EncodingShape.read m1
  | write m1 => exact Laws.EncodingShape.write m1
  | jumpIfTrue m1 m2 => exact Laws.EncodingShape.jumpIfTrue m1 m2
  | jumpIfFalse m1 m2 => exact Laws.EncodingShape.jumpIfFalse m1 m2
  | lessThan m1 m2 m3 => exact Laws.EncodingShape.lessThan m1 m2 m3
  | equals m1 m2 m3 => exact Laws.EncodingShape.equals m1 m2 m3
  | relativeBaseOffset m1 => exact Laws.EncodingShape.relativeBaseOffset m1
  | halt => exact Laws.EncodingShape.halt

/-- The digits of an instruction are the value of its word. -/
theorem encode_toNat (i : Instr) : (encode i).toNat = encodeDigits i := by
  obtain ⟨⟨-, hmax⟩, -⟩ := encodingShape i
  rw [encode, BitVec.toNat_ofNat, Nat.mod_eq_of_lt (by omega)]

/-! A second word for an instruction that has a parameter: another mode in its first slot. -/

/-- Another mode, and one that every slot accepts. -/
def Mode.other : Mode → Mode
  | .position => .relative
  | .immediate => .position
  | .relative => .position

theorem Mode.legalTarget_other (m : Mode) : m.other.legalTarget = true := by
  cases m <;> rfl

theorem Mode.digit_other_ne (m : Mode) : m.other.digit ≠ m.digit := by
  cases m <;> decide

/-- The instruction with another mode in its first slot, where it has one. -/
def Instr.otherFirst : Instr → Instr
  | .add m1 m2 m3 => .add m1.other m2 m3
  | .multiply m1 m2 m3 => .multiply m1.other m2 m3
  | .read m1 => .read m1.other
  | .write m1 => .write m1.other
  | .jumpIfTrue m1 m2 => .jumpIfTrue m1.other m2
  | .jumpIfFalse m1 m2 => .jumpIfFalse m1.other m2
  | .lessThan m1 m2 m3 => .lessThan m1.other m2 m3
  | .equals m1 m2 m3 => .equals m1.other m2 m3
  | .relativeBaseOffset m1 => .relativeBaseOffset m1.other
  | .halt => .halt

@[simp] theorem Instr.otherFirst_opcode (i : Instr) : i.otherFirst.opcode = i.opcode := by
  cases i <;> rfl

theorem Instr.otherFirst_modes {i : Instr} (hi : i ≠ .halt) :
    ∃ m ms, i.modes = m :: ms ∧ i.otherFirst.modes = m.other :: ms := by
  cases i with
  | halt => exact absurd rfl hi
  | _ => exact ⟨_, _, rfl, rfl⟩

/-- Slot 1 is a write slot in Read alone, and the other mode is legal there (rule R91). -/
theorem Instr.otherFirst_wf {i : Instr} (h : i.wf = true) : i.otherFirst.wf = true := by
  cases i with
  | read m1 => exact m1.legalTarget_other
  | _ => exact h

theorem encode_otherFirst_ne {i : Instr} (hi : i ≠ .halt) : encode i.otherFirst ≠ encode i := by
  intro h
  obtain ⟨m, ms, hm, hm'⟩ := Instr.otherFirst_modes hi
  have hdigits : encodeDigits i.otherFirst = encodeDigits i := by rw [← encode_toNat, h, encode_toNat]
  simp only [encodeDigits, hm, hm', modeDigits, Instr.otherFirst_opcode] at hdigits
  have hne := m.digit_other_ne
  omega

end Sys2Proof

open Sys2Proof Sys2Proof.Machine

/-- Settles O7: only 99 has the opcode of Halt and no digit above it; any other instruction has a first slot, and another mode
there makes another word of the same opcode. -/
theorem haltHasOneWord : Obligations.HaltHasOneWord := by
  unfold Obligations.HaltHasOneWord
  exact ⟨fun _ => decode_halt_iff, fun _ => Instr.arity_eq_zero_iff, rfl,
    fun i hwf hi => ⟨i.otherFirst, Instr.otherFirst_wf hwf, i.otherFirst_opcode, encode_otherFirst_ne hi⟩,
    by decide, by decide, by decide⟩

end

section
/-! The wait on input and the faulted status: what enters the wait, and what leaves each of them alone (rules R142, R145, R204,
R211 and R232). -/

namespace Sys2Proof.Machine

/-- A machine whose status is not `running` takes no step (rules R142, R145 and R211). -/
theorem step_ne_next_of_not_running {s : State} (h : s.status ≠ .running) (t : State) : step s ≠ .next t :=
  fun hstep => h (running_of_step hstep)

/-- A faulted machine refuses `run` (rules R145 and R211). -/
theorem enterRun_of_faulted {s : State} {r : FaultRecord} (h : s.status = .faulted r) :
    enterRun s = .refused (.faulted r) := by
  rw [enterRun, h]

/-- `run` wakes a machine that waits on input; it looks at nothing but the status (rules R144 and R232). -/
theorem enterRun_of_waiting {s : State} (h : s.status = .waitingOnInput) : enterRun s = .next (s.setStatus .running) := by
  rw [enterRun, h]

/-- An instruction that meets no fault has its effect whole (rule R120). -/
theorem exec_eq_effectOf {i : Instr} {s : State} (h : faultOf i s = none) : exec i s = .next (effectOf i s) := by
  rw [exec_eq, h]
  rfl

theorem fitsCell_of_nonneg {x : Int} (h0 : 0 ≤ x) (hmax : x ≤ cellMax) : FitsCell x :=
  ⟨Int.le_trans (by decide) h0, hmax⟩

/-- A Read in range whose target resolves meets no fault, whether or not there is input (rule R171). -/
theorem faultOf_read_eq_none {m1 : Mode} {s : State} (h0 : 0 ≤ s.ip.toInt) (h2 : s.ip.toInt + 2 ≤ cellMax)
    (htarget : TargetOk m1 1 s) : faultOf (.read m1) s = none := by
  have hcode : CodeOk 1 s := ⟨h0, by omega⟩
  rw [faultOf, codeTrap_none hcode, targetTrap_none htarget, resultTrap_none (fitsCell_of_nonneg (by omega) h2)]
  rfl

/-- The effect of a Read that finds no input (rule R204). -/
theorem effectOf_read_of_inq_nil {s : State} (m1 : Mode) (h : s.inq = []) :
    effectOf (.read m1) s =
      { s with len := lenAfter s.len (codeCells 1 s), ip := Cell.ofInt (s.ip.toInt + 2), status := .waitingOnInput } := by
  simp only [effectOf, h]

/-- Of all effects on a running machine only that of a Read without input sets it waiting (rule R232). -/
theorem effectOf_waiting {i : Instr} {s : State} (hs : s.status = .running)
    (h : (effectOf i s).status = .waitingOnInput) : s.inq = [] ∧ ∃ m, i = .read m := by
  cases i with
  | read m1 =>
    cases hq : s.inq with
    | nil => exact ⟨rfl, m1, rfl⟩
    | cons v rest => simp [effectOf, hq, hs] at h
  | _ => simp [effectOf, afterStore, afterJump, hs] at h

/-- A step that ends in the wait ran a Read that found no input (rules R143 and R232). -/
theorem read_of_step_waiting {s t : State} (h : step s = .next t) (ht : t.status = .waitingOnInput) :
    s.inq = [] ∧ ∃ m, decode (s.cell (cellAddress s.ip)) = .ok (.read m) := by
  obtain ⟨hrun, ⟨tr, -, rfl⟩ | ⟨i, -, hd, rfl⟩⟩ := step_cases h
  · cases ht
  · obtain ⟨hq, m, rfl⟩ := effectOf_waiting hrun ht
    exact ⟨hq, m, hd⟩

end Sys2Proof.Machine

open Sys2Proof Sys2Proof.Machine

/-- Settles O20: such a Read meets no fault, and with an empty queue its effect is the advance and the wait. -/
theorem readWithoutInput : Obligations.ReadWithoutInput := by
  unfold Obligations.ReadWithoutInput
  intro m1 s h0 h2 htarget hq
  refine ⟨_, exec_eq_effectOf (faultOf_read_eq_none h0 h2 htarget), ?_⟩
  rw [effectOf_read_of_inq_nil m1 hq]
  exact ⟨rfl, Cell.toInt_ofInt (fitsCell_of_nonneg (by omega) h2), rfl⟩

/-- Settles O41: a fault ends a step faulted and no other effect sets the wait. No host action but the entry of `run` sets a
status, and no state that waits takes a step. -/
theorem waitStateOnlyRunWakes : Obligations.WaitStateOnlyRunWakes := by
  unfold Obligations.WaitStateOnlyRunWakes
  refine ⟨fun s t => read_of_step_waiting, fun s hs => ?_⟩
  have hstay {u : State} (hu : u.status = s.status) : u.status = .waitingOnInput ∧ ∀ t, step u ≠ .next t :=
    have hwait := hu.trans hs
    ⟨hwait, step_ne_next_of_not_running (by simp [hwait])⟩
  exact ⟨(hstay rfl).2, fun vs => hstay (s.supplyInput_status vs), fun inq out => hstay (s.attachIo_status inq out),
    fun a v => hstay (s.patch_status a v), hstay s.takeOutput_status, enterRun_of_waiting hs⟩

/-- Settles O39: only a running machine steps, the entry of `run` refuses a faulted one, and no other host action sets a
status. -/
theorem faultedIsAbsorbing : Obligations.FaultedIsAbsorbing := by
  unfold Obligations.FaultedIsAbsorbing
  intro s r hs
  have hrefused := enterRun_of_faulted hs
  exact ⟨step_ne_next_of_not_running (by simp [hs]), fun t => by simp [hrefused], hrefused,
    fun a v => (s.patch_status a v).trans hs, fun vs => (s.supplyInput_status vs).trans hs,
    fun inq out => (s.attachIo_status inq out).trans hs, s.takeOutput_status.trans hs⟩

end

section
/-! The encoder and the decoder: a word decodes to an instruction just where it is that instruction's word and the instruction
is well formed (rules R91 to R94). -/

namespace Sys2Proof

/-! What a word must hold for each part of the decoder to accept it. -/

theorem modeOfDigit_digit (m : Mode) : modeOfDigit m.digit = some m := by
  cases m <;> rfl

theorem sourceMode_of_digit {raw k : Nat} {m : Mode} (h : digit raw (k + 1) = m.digit) : sourceMode raw k = .ok m := by
  rw [sourceMode, h, modeOfDigit_digit]

theorem targetMode_of_digit {raw k : Nat} {m : Mode} (h : digit raw (k + 1) = m.digit) (hm : m.legalTarget = true) :
    targetMode raw k = .ok m := by
  rw [targetMode, sourceMode_of_digit h]
  exact if_pos hm

theorem noExtraneous_of_div_eq_zero {raw n : Nat} (h : raw / 10 ^ (n + 2) = 0) (i : Instr) :
    noExtraneous raw n i = .ok i := if_pos h

theorem decodeF3_of_modesAt {raw : Nat} {m1 m2 m3 : Mode} (mk : Mode → Mode → Mode → Instr)
    (h : ModesAt raw 2 [m1, m2, m3]) (hm : m3.legalTarget = true) (habove : raw / 10 ^ 5 = 0) :
    decodeF3 raw mk = .ok (mk m1 m2 m3) := by
  obtain ⟨h1, h2, h3, -⟩ := h
  rw [decodeF3, sourceMode_of_digit h1, sourceMode_of_digit h2, targetMode_of_digit h3 hm]
  exact noExtraneous_of_div_eq_zero habove _

theorem decodeF2_of_modesAt {raw : Nat} {m1 m2 : Mode} (mk : Mode → Mode → Instr) (h : ModesAt raw 2 [m1, m2])
    (habove : raw / 10 ^ 4 = 0) : decodeF2 raw mk = .ok (mk m1 m2) := by
  obtain ⟨h1, h2, -⟩ := h
  rw [decodeF2, sourceMode_of_digit h1, sourceMode_of_digit h2]
  exact noExtraneous_of_div_eq_zero habove _

theorem decodeF1Source_of_modesAt {raw : Nat} {m1 : Mode} (mk : Mode → Instr) (h : ModesAt raw 2 [m1])
    (habove : raw / 10 ^ 3 = 0) : decodeF1Source raw mk = .ok (mk m1) := by
  obtain ⟨h1, -⟩ := h
  rw [decodeF1Source, sourceMode_of_digit h1]
  exact noExtraneous_of_div_eq_zero habove _

theorem decodeF1Target_of_modesAt {raw : Nat} {m1 : Mode} (mk : Mode → Instr) (h : ModesAt raw 2 [m1])
    (hm : m1.legalTarget = true) (habove : raw / 10 ^ 3 = 0) : decodeF1Target raw mk = .ok (mk m1) := by
  obtain ⟨h1, -⟩ := h
  rw [decodeF1Target, targetMode_of_digit h1 hm]
  exact noExtraneous_of_div_eq_zero habove _

/-- A word that holds the opcode and the modes of a well-formed instruction, and nothing above them, decodes to it. -/
theorem decodeDigits_of_modesAt {raw : Nat} {i : Instr} (hop : raw % 100 = i.opcode) (hmodes : ModesAt raw 2 i.modes)
    (habove : raw / 10 ^ (i.arity + 2) = 0) (hwf : i.wf = true) : decodeDigits raw = .ok i := by
  cases i with
  | add m1 m2 m3 | multiply m1 m2 m3 | lessThan m1 m2 m3 | equals m1 m2 m3 =>
    rw [decodeDigits, hop]
    exact decodeF3_of_modesAt _ hmodes hwf habove
  | jumpIfTrue m1 m2 | jumpIfFalse m1 m2 =>
    rw [decodeDigits, hop]
    exact decodeF2_of_modesAt _ hmodes habove
  | write m1 | relativeBaseOffset m1 =>
    rw [decodeDigits, hop]
    exact decodeF1Source_of_modesAt _ hmodes habove
  | read m1 =>
    rw [decodeDigits, hop]
    exact decodeF1Target_of_modesAt _ hmodes hwf habove
  | halt =>
    rw [decodeDigits, hop]
    exact noExtraneous_of_div_eq_zero habove _

/-! What an accepted word holds beside its opcode and its modes: nothing above them, and no Immediate target. -/

theorem legalTarget_of_targetMode_ok {raw k : Nat} {m : Mode} (h : targetMode raw k = .ok m) : m.legalTarget = true := by
  obtain ⟨m', -, h⟩ := bind_eq_ok h
  split at h <;> cases h
  assumption

theorem decodeF3_ok_shape {raw : Nat} {mk : Mode → Mode → Mode → Instr} {i : Instr} (h : decodeF3 raw mk = .ok i) :
    raw / 10 ^ 5 = 0 ∧ ∃ m1 m2 m3, i = mk m1 m2 m3 ∧ m3.legalTarget = true := by
  obtain ⟨m1, -, h⟩ := bind_eq_ok h
  obtain ⟨m2, -, h⟩ := bind_eq_ok h
  obtain ⟨m3, h3, h⟩ := bind_eq_ok h
  exact ⟨div_eq_zero_of_noExtraneous_ok h, m1, m2, m3, noExtraneous_ok h, legalTarget_of_targetMode_ok h3⟩

theorem decodeF2_ok_shape {raw : Nat} {mk : Mode → Mode → Instr} {i : Instr} (h : decodeF2 raw mk = .ok i) :
    raw / 10 ^ 4 = 0 ∧ ∃ m1 m2, i = mk m1 m2 := by
  obtain ⟨m1, -, h⟩ := bind_eq_ok h
  obtain ⟨m2, -, h⟩ := bind_eq_ok h
  exact ⟨div_eq_zero_of_noExtraneous_ok h, m1, m2, noExtraneous_ok h⟩

theorem decodeF1Source_ok_shape {raw : Nat} {mk : Mode → Instr} {i : Instr} (h : decodeF1Source raw mk = .ok i) :
    raw / 10 ^ 3 = 0 ∧ ∃ m1, i = mk m1 := by
  obtain ⟨m1, -, h⟩ := bind_eq_ok h
  exact ⟨div_eq_zero_of_noExtraneous_ok h, m1, noExtraneous_ok h⟩

theorem decodeF1Target_ok_shape {raw : Nat} {mk : Mode → Instr} {i : Instr} (h : decodeF1Target raw mk = .ok i) :
    raw / 10 ^ 3 = 0 ∧ ∃ m1, i = mk m1 ∧ m1.legalTarget = true := by
  obtain ⟨m1, h1, h⟩ := bind_eq_ok h
  exact ⟨div_eq_zero_of_noExtraneous_ok h, m1, noExtraneous_ok h, legalTarget_of_targetMode_ok h1⟩

theorem decodeDigits_ok_shape {raw : Nat} {i : Instr} (h : decodeDigits raw = .ok i) :
    raw / 10 ^ (i.arity + 2) = 0 ∧ i.wf = true := by
  unfold decodeDigits at h
  split at h
  case h_1 | h_2 | h_7 | h_8 =>
    obtain ⟨habove, m1, m2, m3, rfl, hm⟩ := decodeF3_ok_shape h
    exact ⟨habove, hm⟩
  case h_5 | h_6 =>
    obtain ⟨habove, m1, m2, rfl⟩ := decodeF2_ok_shape h
    exact ⟨habove, rfl⟩
  case h_4 | h_9 =>
    obtain ⟨habove, m1, rfl⟩ := decodeF1Source_ok_shape h
    exact ⟨habove, rfl⟩
  case h_3 =>
    obtain ⟨habove, m1, rfl, hm⟩ := decodeF1Target_ok_shape h
    exact ⟨habove, hm⟩
  case h_10 =>
    obtain rfl := noExtraneous_ok h
    exact ⟨div_eq_zero_of_noExtraneous_ok h, rfl⟩
  case h_11 => cases h

/-! The sum of rule R94 has the digits of the modes, and is the only number that has them. -/

theorem pow_dvd_modeDigits (p : Nat) (ms : List Mode) : 10 ^ p ∣ modeDigits p ms := by
  induction ms generalizing p with
  | nil => exact Nat.dvd_zero _
  | cons m ms ih =>
    exact Nat.dvd_add (Nat.dvd_mul_left _ _) ((Nat.pow_dvd_pow 10 (Nat.le_succ p)).trans (ih (p + 1)))

theorem Mode.digit_lt (m : Mode) : m.digit < 10 := by
  cases m <;> decide

/-- Below `10^p` there may be anything: the digits from `p` up are those of the sum. -/
theorem modesAt_add_modeDigits {a p : Nat} (ha : a < 10 ^ p) (ms : List Mode) : ModesAt (a + modeDigits p ms) p ms := by
  induction ms generalizing a p with
  | nil => trivial
  | cons m ms ih =>
    have hm := m.digit_lt
    have hlow : a + m.digit * 10 ^ p < 10 ^ (p + 1) := by
      rw [Nat.pow_succ]
      nlinarith
    rw [modeDigits, ← Nat.add_assoc]
    refine ⟨?_, ih hlow⟩
    obtain ⟨q, hq⟩ := pow_dvd_modeDigits (p + 1) ms
    have hsum : a + m.digit * 10 ^ p + 10 ^ (p + 1) * q = a + 10 ^ p * (m.digit + 10 * q) := by ring
    rw [digit, hq, hsum, Nat.add_mul_div_left _ _ (by positivity), Nat.div_eq_of_lt ha]
    omega

/-- The digits of the modes add the sum of rule R94 to what stands below them. -/
theorem ModesAt.mod_eq {raw p : Nat} {ms : List Mode} (h : ModesAt raw p ms) :
    raw % 10 ^ (p + ms.length) = raw % 10 ^ p + modeDigits p ms := by
  induction ms generalizing p with
  | nil => rfl
  | cons m ms ih =>
    obtain ⟨hd, htail⟩ := h
    rw [digit] at hd
    rw [List.length_cons, Nat.add_comm ms.length 1, ← Nat.add_assoc, ih htail, Nat.mod_pow_succ, hd, modeDigits]
    ring

/-- A word decodes just to the well-formed instruction whose digits it has. -/
theorem decodeDigits_ok_iff {raw : Nat} {i : Instr} : decodeDigits raw = .ok i ↔ raw = encodeDigits i ∧ i.wf = true := by
  obtain ⟨-, hop, habove, hlen⟩ := encodingShape i
  constructor
  · intro h
    obtain ⟨hraw, hmodes⟩ := decodeDigits_ok h
    obtain ⟨hzero, hwf⟩ := decodeDigits_ok_shape h
    have hlt : raw < 10 ^ (2 + i.modes.length) := by
      rw [hlen, Nat.add_comm]
      exact Nat.lt_of_div_eq_zero (by positivity) hzero
    refine ⟨?_, hwf⟩
    calc raw = raw % 10 ^ (2 + i.modes.length) := (Nat.mod_eq_of_lt hlt).symm
      _ = raw % 10 ^ 2 + modeDigits 2 i.modes := hmodes.mod_eq
      _ = encodeDigits i := congrArg (· + modeDigits 2 i.modes) hraw
  · rintro ⟨rfl, hwf⟩
    have hlt : i.opcode < 10 ^ 2 := by omega
    exact decodeDigits_of_modesAt hop (modesAt_add_modeDigits hlt i.modes) habove hwf

theorem encode_toInt (i : Instr) : (encode i).toInt = encodeDigits i := by
  obtain ⟨⟨-, hmax⟩, -⟩ := encodingShape i
  have hval := encode_toNat i
  rw [BitVec.toInt_eq_toNat_of_lt (by omega), hval]

/-- The decoder and the encoder are inverse to each other, on the well-formed instructions (rule R94). -/
theorem decode_ok_iff {raw : Cell} {i : Instr} : decode raw = .ok i ↔ raw = encode i ∧ i.wf = true := by
  obtain ⟨⟨hmin, hmax⟩, -⟩ := encodingShape i
  have hval := encode_toInt i
  constructor
  · intro h
    obtain ⟨hraw, hwf⟩ := decodeDigits_ok_iff.mp (Machine.decodeDigits_of_decode_ok h)
    exact ⟨Cell.eq_iff_toInt.mpr (by omega), hwf⟩
  · rintro ⟨rfl, hwf⟩
    obtain ⟨hout, -⟩ | ⟨-, hdig⟩ := Machine.decode_cases (encode i)
    · exact absurd ⟨by omega, by omega⟩ hout
    · rw [hdig]
      exact decodeDigits_ok_iff.mpr ⟨by omega, hwf⟩

end Sys2Proof

open Sys2Proof Sys2Proof.Machine

/-- Settles O1: the word of a well-formed instruction holds its opcode and its modes, and nothing above them. -/
theorem decodeOfEncode : Obligations.DecodeOfEncode := by
  unfold Obligations.DecodeOfEncode
  exact fun i hwf => decode_ok_iff.mpr ⟨rfl, hwf⟩

/-- Settles O2: an accepted word has no digit but those of its opcode and its modes, so it is their sum. -/
theorem encodeOfDecode : Obligations.EncodeOfDecode := by
  unfold Obligations.EncodeOfDecode
  intro raw i h
  obtain ⟨hraw, hwf⟩ := decode_ok_iff.mp h
  exact ⟨hraw.symm, hwf⟩

end

section
/-! The table of rule R93: its rows are the words of the well-formed instructions, each once. -/

namespace Sys2Proof

/-- The modes of a source slot (rule R91). -/
def sourceModes : List Mode := [.position, .immediate, .relative]

/-- The modes of a write slot (rule R91). -/
def targetModes : List Mode := [.position, .relative]

@[simp] theorem mem_sourceModes (m : Mode) : m ∈ sourceModes := by
  cases m <;> decide

@[simp] theorem mem_targetModes_iff {m : Mode} : m ∈ targetModes ↔ m.legalTarget = true := by
  cases m <;> decide

/-- The instructions of a row of the table for a format F3 opcode, the first mode running fastest. -/
def instrsF3 (mk : Mode → Mode → Mode → Instr) : List Instr :=
  targetModes.flatMap fun m3 => sourceModes.flatMap fun m2 => sourceModes.map fun m1 => mk m1 m2 m3

/-- The same for a format F2 opcode. -/
def instrsF2 (mk : Mode → Mode → Instr) : List Instr :=
  sourceModes.flatMap fun m2 => sourceModes.map fun m1 => mk m1 m2

@[simp] theorem mem_instrsF3_iff {mk : Mode → Mode → Mode → Instr} {i : Instr} :
    i ∈ instrsF3 mk ↔ ∃ m3, m3.legalTarget = true ∧ ∃ m2 m1, mk m1 m2 m3 = i := by
  simp [instrsF3]

@[simp] theorem mem_instrsF2_iff {mk : Mode → Mode → Instr} {i : Instr} :
    i ∈ instrsF2 mk ↔ ∃ m2 m1, mk m1 m2 = i := by
  simp [instrsF2]

/-- The instructions of the table of rule R93, in its order. -/
def tableInstrs : List Instr :=
  instrsF3 .add ++ instrsF3 .multiply ++ targetModes.map .read ++ sourceModes.map .write ++ instrsF2 .jumpIfTrue
    ++ instrsF2 .jumpIfFalse ++ instrsF3 .lessThan ++ instrsF3 .equals ++ sourceModes.map .relativeBaseOffset ++ [.halt]

/-- The table leaves out no well-formed instruction, and holds no other. -/
theorem mem_tableInstrs_iff {i : Instr} : i ∈ tableInstrs ↔ i.wf = true := by
  cases i <;> simp [tableInstrs, Instr.wf]

/-- The numbers written out in the table are the words of those instructions. -/
theorem validWords_eq_map_tableInstrs : Machine.validWords = tableInstrs.map fun i => (encodeDigits i : Int) := by
  decide

end Sys2Proof

open Sys2Proof Sys2Proof.Machine

/-- Settles O6: the table lists the words of the well-formed instructions, and those are the words that decode. -/
theorem validWordsComplete : Obligations.ValidWordsComplete := by
  unfold Obligations.ValidWordsComplete
  refine ⟨by decide, by decide, fun raw => ?_⟩
  rw [validWords_eq_map_tableInstrs, List.mem_map]
  refine exists_congr fun i => ?_
  rw [decode_ok_iff, mem_tableInstrs_iff, and_comm, Cell.eq_iff_toInt, encode_toInt, eq_comm (a := raw.toInt)]

/-- Settles O8: the decoder run on the ten words. -/
theorem sampleWordsDecode : Obligations.SampleWordsDecode := by
  unfold Obligations.SampleWordsDecode
  decide

end

section
/-! Which words with a known opcode are rejected, and for what (rules R92 and R103 to R105; the order is the spec's decision D7). -/

namespace Sys2Proof

/-- Slots `k` to `n` all hold a mode digit (rule R87). -/
def ModeDigits (raw k n : Nat) : Prop := ∀ j, k ≤ j → j ≤ n → digit raw (j + 1) ≤ 2

/-- The errors of a word with `n` parameters and write slot `w`, its slots below `k` having passed. -/
def DigitError (raw n : Nat) (w : Option Nat) (k : Nat) : DecodeError → Prop
  | .rawOutOfRange => False
  | .badOpcode _ => False
  | .badModeDigit j d =>
    k ≤ j ∧ j ≤ n ∧ d = digit raw (j + 1) ∧ 2 < d ∧ ∀ i, k ≤ i → i < j → digit raw (i + 1) ≤ 2
  | .modeNotLegalForSlot j m => ModeDigits raw k n ∧ w = some j ∧ digit raw (j + 1) = 1 ∧ m = .immediate
  | .extraneousDigits =>
    ModeDigits raw k n ∧ (∀ j, w = some j → digit raw (j + 1) ≠ 1) ∧ raw / 10 ^ (n + 2) ≠ 0

/-- A property of the slots from `k` up to a bound above it is one of slot `k` and of those from `k + 1` up. -/
theorem forall_ge_iff_succ {P Q : Nat → Prop} {k : Nat} (hk : P k) :
    (∀ j, k ≤ j → P j → Q j) ↔ Q k ∧ ∀ j, k + 1 ≤ j → P j → Q j := by
  constructor
  · exact fun h => ⟨h k (Nat.le_refl k) hk, fun j hj => h j (by omega)⟩
  · rintro ⟨h0, h⟩ j hj hP
    obtain rfl | hlt := Nat.eq_or_lt_of_le hj
    · exact h0
    · exact h j hlt hP

theorem modeDigits_succ_iff {raw k n : Nat} (hk : k ≤ n) :
    ModeDigits raw k n ↔ digit raw (k + 1) ≤ 2 ∧ ModeDigits raw (k + 1) n :=
  forall_ge_iff_succ (P := (· ≤ n)) hk

theorem modeDigits_of_lt {raw k n : Nat} (h : n < k) : ModeDigits raw k n := fun j hk hn => by omega

/-- A slot's digit is above 2 and is the error, or it is a mode digit and the error is that of the slots after it. -/
theorem digitError_succ_iff {raw n k : Nat} {w : Option Nat} (hk : k ≤ n) {e : DecodeError} :
    DigitError raw n w k e ↔
      (2 < digit raw (k + 1) ∧ e = .badModeDigit k (digit raw (k + 1))) ∨
      (digit raw (k + 1) ≤ 2 ∧ DigitError raw n w (k + 1) e) := by
  cases e with
  | rawOutOfRange | badOpcode => simp [DigitError]
  | modeNotLegalForSlot j m | extraneousDigits => simp [DigitError, modeDigits_succ_iff hk, and_assoc]
  | badModeDigit j d =>
    simp only [DigitError, DecodeError.badModeDigit.injEq]
    constructor
    · rintro ⟨hkj, hjn, rfl, hd, hlow⟩
      obtain rfl | hlt := Nat.eq_or_lt_of_le hkj
      · exact .inl ⟨hd, rfl, rfl⟩
      · exact .inr ⟨hlow k (Nat.le_refl k) hlt, hlt, hjn, rfl, hd, fun i hi => hlow i (by omega)⟩
    · rintro (⟨hd, rfl, rfl⟩ | ⟨hk2, hlt, hjn, rfl, hd, hlow⟩)
      · exact ⟨Nat.le_refl j, hk, rfl, hd, fun i hi hij => by omega⟩
      · exact ⟨by omega, hjn, rfl, hd, (forall_ge_iff_succ (P := (· < j)) hlt).mpr ⟨hk2, hlow⟩⟩

/-- What a digit says of its slot: a mode, or a bad digit. -/
theorem sourceMode_cases (raw k : Nat) :
    (2 < digit raw (k + 1) ∧ sourceMode raw k = .error (.badModeDigit k (digit raw (k + 1)))) ∨
    (digit raw (k + 1) ≤ 2 ∧ ∃ m : Mode, digit raw (k + 1) = m.digit ∧ sourceMode raw k = .ok m) := by
  unfold sourceMode
  generalize digit raw (k + 1) = d
  match d with
  | 0 => exact .inr ⟨by omega, .position, rfl, rfl⟩
  | 1 => exact .inr ⟨by omega, .immediate, rfl, rfl⟩
  | 2 => exact .inr ⟨by omega, .relative, rfl, rfl⟩
  | d + 3 => exact .inl ⟨by omega, rfl⟩

theorem Mode.legalTarget_eq_false_iff {m : Mode} : m.legalTarget = false ↔ m = .immediate := by
  cases m <;> decide

theorem Mode.digit_eq_one_iff {m : Mode} : m.digit = 1 ↔ m = .immediate := by
  cases m <;> decide

/-- Past the last slot no digit is bad. -/
theorem not_digitError_badModeDigit (raw n : Nat) (w : Option Nat) (j d : Nat) :
    ¬ DigitError raw n w (n + 1) (.badModeDigit j d) := by
  rintro ⟨hlow, hhigh, -⟩
  omega

/-- The checks end with the digits above the used ones (rule R92 step 4). -/
theorem noExtraneous_error_iff {raw n : Nat} {i : Instr} {e : DecodeError} :
    noExtraneous raw n i = .error e ↔ DigitError raw n none (n + 1) e := by
  have hdigits : ModeDigits raw (n + 1) n := modeDigits_of_lt (Nat.lt_succ_self n)
  rw [noExtraneous]
  cases e with
  | badModeDigit j d => split <;> simp [not_digitError_badModeDigit]
  | _ => split <;> simp [DigitError, *]

/-- A source slot followed by checks whose errors are those of the slots after it (rule R92 step 3). -/
theorem sourceMode_bind_error_iff {raw n k : Nat} {w : Option Nat} (hk : k ≤ n) {f : Mode → Except DecodeError Instr}
    {e : DecodeError} (hf : ∀ m : Mode, digit raw (k + 1) = m.digit → (f m = .error e ↔ DigitError raw n w (k + 1) e)) :
    (sourceMode raw k >>= f) = .error e ↔ DigitError raw n w k e := by
  rw [digitError_succ_iff hk]
  obtain ⟨hd, h⟩ | ⟨hd, m, hm, h⟩ := sourceMode_cases raw k
  · rw [h]
    constructor
    · intro he
      cases he
      exact .inl ⟨hd, rfl⟩
    · rintro (⟨-, rfl⟩ | ⟨hle, -⟩)
      · rfl
      · omega
  · rw [h]
    refine (hf m hm).trans ⟨fun he => .inr ⟨hd, he⟩, ?_⟩
    rintro (⟨hlt, -⟩ | ⟨-, he⟩)
    · omega
    · exact he

/-- A write slot is the last one: its digit is tested, then its mode, then the digits above (rule R92 steps 3 and 4). -/
theorem targetMode_bind_error_iff {raw n : Nat} {mk : Mode → Instr} {e : DecodeError} :
    (targetMode raw n >>= fun m => noExtraneous raw n (mk m)) = .error e ↔ DigitError raw n (some n) n e := by
  rw [targetMode, bind_assoc]
  refine sourceMode_bind_error_iff (Nat.le_refl n) fun m hm => ?_
  have hdigits : ModeDigits raw (n + 1) n := modeDigits_of_lt (Nat.lt_succ_self n)
  cases hlegal : m.legalTarget with
  | true =>
    have hne : m.digit ≠ 1 := fun h => by simp [Mode.digit_eq_one_iff.mp h, Mode.legalTarget] at hlegal
    refine noExtraneous_error_iff.trans ?_
    cases e with
    | badModeDigit j d => simp [not_digitError_badModeDigit]
    | modeNotLegalForSlot j m' =>
      refine iff_of_false (nomatch ·.2.1) ?_
      rintro ⟨-, hj, hone, -⟩
      cases hj
      exact hne (hm.symm.trans hone)
    | _ => simp [DigitError, hdigits, hm, hne]
  | false =>
    obtain rfl := Mode.legalTarget_eq_false_iff.mp hlegal
    change Except.error (DecodeError.modeNotLegalForSlot n .immediate) = .error e ↔ _
    cases e with
    | badModeDigit j d => simp [not_digitError_badModeDigit]
    | modeNotLegalForSlot j m =>
      constructor
      · intro h
        cases h
        exact ⟨hdigits, rfl, hm, rfl⟩
      · rintro ⟨-, hj, -, rfl⟩
        cases hj
        rfl
    | _ => simp [DigitError, hdigits, hm, Mode.digit]

/-! The formats of rule R82. -/

theorem decodeF3_error_iff {raw : Nat} {mk : Mode → Mode → Mode → Instr} {e : DecodeError} :
    decodeF3 raw mk = .error e ↔ DigitError raw 3 (some 3) 1 e :=
  sourceMode_bind_error_iff (by omega) fun _ _ => sourceMode_bind_error_iff (by omega) fun _ _ => targetMode_bind_error_iff

theorem decodeF2_error_iff {raw : Nat} {mk : Mode → Mode → Instr} {e : DecodeError} :
    decodeF2 raw mk = .error e ↔ DigitError raw 2 none 1 e :=
  sourceMode_bind_error_iff (by omega) fun _ _ => sourceMode_bind_error_iff (by omega) fun _ _ => noExtraneous_error_iff

theorem decodeF1Source_error_iff {raw : Nat} {mk : Mode → Instr} {e : DecodeError} :
    decodeF1Source raw mk = .error e ↔ DigitError raw 1 none 1 e :=
  sourceMode_bind_error_iff (by omega) fun _ _ => noExtraneous_error_iff

theorem decodeF1Target_error_iff {raw : Nat} {mk : Mode → Instr} {e : DecodeError} :
    decodeF1Target raw mk = .error e ↔ DigitError raw 1 (some 1) 1 e :=
  targetMode_bind_error_iff

end Sys2Proof

namespace Sys2Proof.Machine

/-- Of a word with a known opcode the errors are those of its digits. -/
theorem decodeDigits_error_iff {raw n : Nat} (h : arityOfOpcode (raw % 100) = some n) {e : DecodeError} :
    decodeDigits raw = .error e ↔ DigitError raw n (writeSlotOfOpcode (raw % 100)) 1 e := by
  unfold decodeDigits
  split
  case h_1 hop | h_2 hop | h_7 hop | h_8 hop =>
    rw [hop] at h ⊢
    cases h
    exact decodeF3_error_iff
  case h_5 hop | h_6 hop =>
    rw [hop] at h ⊢
    cases h
    exact decodeF2_error_iff
  case h_4 hop | h_9 hop =>
    rw [hop] at h ⊢
    cases h
    exact decodeF1Source_error_iff
  case h_3 hop =>
    rw [hop] at h ⊢
    cases h
    exact decodeF1Target_error_iff
  case h_10 hop =>
    rw [hop] at h ⊢
    cases h
    exact noExtraneous_error_iff
  case h_11 =>
    have hnone : arityOfOpcode (raw % 100) = none := arityOfOpcode_eq_none_iff.mpr (by simp_all)
    rw [hnone] at h
    cases h

/-- The errors about the digits above the opcode: the word is in range, its opcode is known, and its digits have that error. -/
theorem decode_error_iff {raw : Cell} {e : DecodeError} (he : e.AboveOpcode) :
    decode raw = .error e ↔ RawInRange raw ∧ ∃ n, arityOfOpcode (raw.toInt.toNat % 100) = some n ∧
      DigitError raw.toInt.toNat n (writeSlotOfOpcode (raw.toInt.toNat % 100)) 1 e := by
  obtain ⟨hout, h⟩ | ⟨hin, h⟩ := decode_cases raw
  · rw [h]
    refine iff_of_false (fun h' => ?_) fun h' => hout h'.1
    cases h'
    exact he
  · rw [h, and_iff_right hin]
    cases hn : arityOfOpcode (raw.toInt.toNat % 100) with
    | some n => simp [decodeDigits_error_iff hn]
    | none =>
      obtain ⟨-, hbad⟩ | ⟨hsome, -⟩ := decodeDigits_cases raw.toInt.toNat
      · rw [hbad]
        refine iff_of_false (fun h' => ?_) (by simp)
        cases h'
        exact he
      · exact absurd hn hsome

end Sys2Proof.Machine

open Sys2Proof Sys2Proof.Machine

/-- Settles O5: the checks run slot by slot, so an error is that of the first slot whose digit fails, then that of the write
slot's mode, then that of the digits above. -/
theorem modeAndDigitErrors : Obligations.ModeAndDigitErrors := by
  unfold Obligations.ModeAndDigitErrors
  exact ⟨fun raw k d => decode_error_iff trivial, fun raw k m => decode_error_iff trivial,
    fun raw => decode_error_iff trivial⟩

end

section
/-! The invariant of rule R57: every address an instruction accesses exists, and memory changes in no other way than by growth
to those addresses and one store at one of them. -/

namespace Sys2Proof.Machine

/-! Where the checks pass, the addresses accessed exist (rules R121, R123, R129 and R130). -/

theorem toNat_lt_memoryCells {ea : Int} (h : ea ≤ cellMax) : ea.toNat < Config.memoryCells := by
  simp only [cellMax, Config.memoryCells] at *
  omega

theorem codeOk_of_codeTrap {n : Nat} {s : State} (h : codeTrap n s = none) : CodeOk n s := by
  have h0 := ip_nonneg_of_codeTrap h
  refine ⟨h0, Int.not_lt.mp fun hlt => ?_⟩
  rw [codeTrap_overflow h0 hlt] at h
  cases h

theorem codeCells_lt {n : Nat} {s : State} (h : codeTrap n s = none) : ∀ a ∈ codeCells n s, a < Config.memoryCells := by
  obtain ⟨h0, hmax⟩ := codeOk_of_codeTrap h
  intro a ha
  simp only [codeCells, List.mem_map, List.mem_range, cellAddress, cellMax, Config.memoryCells] at *
  omega

theorem sourceCells_lt {m : Mode} {k : Nat} {s : State} (h : sourceTrap m k s = none) :
    ∀ a ∈ sourceCells m k s, a < Config.memoryCells := by
  cases m with
  | immediate => exact fun a ha => by cases ha
  | position | relative => exact List.forall_mem_singleton.mpr (toNat_lt_memoryCells (addressTrap_eq_none.mp h).2)

theorem targetOf_lt {m : Mode} {k : Nat} {s : State} (h : targetTrap m k s = none) :
    targetOf m k s < Config.memoryCells := by
  cases m with
  | immediate => cases h
  | position | relative => exact toNat_lt_memoryCells (addressTrap_eq_none.mp h).2

/-- Memory of `t` is that of `s` after accesses at addresses that exist, with at most one store among them (rule R54). -/
def MemoryAccessed (s t : State) : Prop :=
  ∃ as : List Nat, (∀ a ∈ as, a < Config.memoryCells) ∧ t.len = lenAfter s.len as ∧
    (t.mem = s.mem ∨ ∃ d ∈ as, ∃ v, t.mem = Memory.write s.mem d v)

/-- Memory length never decreases (rule R57 (c)). -/
theorem MemoryAccessed.len_le {s t : State} (h : MemoryAccessed s t) : s.len ≤ t.len := by
  obtain ⟨as, -, hlen, -⟩ := h
  exact hlen ▸ le_lenAfter s.len as

/-- Accesses at addresses that exist keep the invariant. -/
theorem MemoryAccessed.inv {s t : State} (h : MemoryAccessed s t) (hs : s.Inv) : t.Inv := by
  have hle := h.len_le
  obtain ⟨as, has, hlen, hmem⟩ := h
  obtain ⟨hwf, hbelow, hmax⟩ := hs
  have hcap : t.len ≤ Config.memoryCells := hlen ▸ lenAfter_le hmax has
  have hkept : ∀ e ∈ s.mem, e.1 < t.len := fun e he => (hbelow e he).trans_le hle
  obtain hmem | ⟨d, hd, v, hmem⟩ := hmem
  · rw [State.Inv, hmem]
    exact ⟨hwf, hkept, hcap⟩
  · rw [State.Inv, hmem]
    refine ⟨Memory.wf_write d v hwf, fun e he => ?_, hcap⟩
    obtain rfl | he := Memory.mem_write he
    · exact hlen ▸ lt_lenAfter hd
    · exact hkept e he

/-- Without an access memory is as it was. -/
theorem MemoryAccessed.of_eq {s t : State} (hmem : t.mem = s.mem) (hlen : t.len = s.len) : MemoryAccessed s t :=
  ⟨[], by simp, hlen, .inl hmem⟩

/-- The effect of a Read that takes the front of the queue (rule R171). -/
theorem effectOf_read_of_inq_cons {s : State} {v : Cell} {rest : List Cell} (m1 : Mode) (h : s.inq = v :: rest) :
    effectOf (.read m1) s =
      { s with mem := Memory.write s.mem (targetOf m1 1 s) v, len := lenAfter s.len (codeCells 1 s ++ [targetOf m1 1 s]),
               ip := Cell.ofInt (s.ip.toInt + 2), inq := rest } := by
  simp only [effectOf, h]

/-- What an instruction that meets no fault does to memory. -/
theorem effectOf_memoryAccessed {i : Instr} {s : State} (h : faultOf i s = none) : MemoryAccessed s (effectOf i s) := by
  cases i with
  | add m1 m2 m3 | multiply m1 m2 m3 | lessThan m1 m2 m3 | equals m1 m2 m3 =>
    simp only [faultOf, firstTrap_eq_none_iff, List.forall_mem_cons] at h
    obtain ⟨hcode, h1, h2, h3, -⟩ := h
    refine ⟨_, ?_, rfl, .inr ⟨targetOf m3 3 s, by simp, _, rfl⟩⟩
    simp only [List.forall_mem_append, List.forall_mem_singleton]
    exact ⟨⟨⟨codeCells_lt hcode, sourceCells_lt h1⟩, sourceCells_lt h2⟩, targetOf_lt h3⟩
  | jumpIfTrue m1 m2 | jumpIfFalse m1 m2 =>
    simp only [faultOf, firstTrap_eq_none_iff, List.forall_mem_cons] at h
    obtain ⟨hcode, h1, h2, -⟩ := h
    refine ⟨_, ?_, rfl, .inl rfl⟩
    simp only [List.forall_mem_append]
    exact ⟨⟨codeCells_lt hcode, sourceCells_lt h1⟩, sourceCells_lt h2⟩
  | write m1 | relativeBaseOffset m1 =>
    simp only [faultOf, firstTrap_eq_none_iff, List.forall_mem_cons] at h
    obtain ⟨hcode, h1, -⟩ := h
    exact ⟨_, List.forall_mem_append.mpr ⟨codeCells_lt hcode, sourceCells_lt h1⟩, rfl, .inl rfl⟩
  | read m1 =>
    simp only [faultOf, firstTrap_eq_none_iff, List.forall_mem_cons] at h
    obtain ⟨hcode, h1, -⟩ := h
    cases hq : s.inq with
    | nil =>
      rw [effectOf_read_of_inq_nil m1 hq]
      exact ⟨_, codeCells_lt hcode, rfl, .inl rfl⟩
    | cons v rest =>
      rw [effectOf_read_of_inq_cons m1 hq]
      refine ⟨_, ?_, rfl, .inr ⟨targetOf m1 1 s, by simp, v, rfl⟩⟩
      exact List.forall_mem_append.mpr ⟨codeCells_lt hcode, List.forall_mem_singleton.mpr (targetOf_lt h1)⟩
  | halt =>
    simp only [faultOf, firstTrap_singleton] at h
    exact ⟨_, List.forall_mem_append.mpr ⟨codeCells_lt h, by simp [Config.memoryCells]⟩, rfl, .inl rfl⟩

/-- A step that meets no fault at all meets none in its instruction (rule R207). -/
theorem faultOf_eq_none_of_stepFault {s : State} {i : Instr} (h : stepFault s = none)
    (hd : decode (s.cell (cellAddress s.ip)) = .ok i) : faultOf i s = none := by
  unfold stepFault at h
  split at h
  · cases h
  · rwa [hd] at h

/-- What a step does to memory: nothing if it faults, and otherwise what its instruction does. -/
theorem step_memoryAccessed {s t : State} (h : step s = .next t) : MemoryAccessed s t := by
  obtain ⟨-, ⟨tr, -, rfl⟩ | ⟨i, hnone, hd, rfl⟩⟩ := step_cases h
  · exact .of_eq (raise_mem tr s) (raise_len tr s)
  · exact effectOf_memoryAccessed (faultOf_eq_none_of_stepFault hnone hd)

/-- What `run` sets on its way in is no part of memory. -/
theorem enterRun_inv {s t : State} (h : enterRun s = .next t) (hs : s.Inv) : t.Inv := by
  obtain ⟨-, rfl⟩ := enterRun_cases h
  exact hs

theorem State.patch_inv {s : State} (hs : s.Inv) (a v : Cell) : (s.patch a v).Inv := by
  obtain ⟨-, h⟩ | ⟨-, h⟩ := s.patch_cases a v
  · rwa [h]
  · rw [h]
    exact State.inv_store hs (cellAddress_lt a)

/-- An image is listed in canonical form below its length. -/
theorem load_inv {image : List Cell} (h : image.length ≤ Config.memoryCells) (inq out : List Cell) :
    (load image inq out).Inv := by
  refine ⟨imageFrom_wf 0 image, fun e he => ?_, h⟩
  obtain ⟨-, hlt⟩ := imageFrom_bounds 0 image e he
  simpa [load] using hlt

theorem reset_eq_load : State.reset = load [] [] [] := rfl

/-- Rule R40: each Cell of the image at its place, and 0 beyond. -/
theorem load_cell (image inq out : List Cell) (k : Nat) : (load image inq out).cell k = image.getD k 0 := by
  have h := imageFrom_read 0 image k
  rwa [Nat.zero_add] at h

end Sys2Proof.Machine

open Sys2Proof Sys2Proof.Machine

/-- Settles O53: a step only accesses addresses that exist, and such accesses keep the invariant. -/
theorem stepKeepsInvariant : Obligations.StepKeepsInvariant := by
  unfold Obligations.StepKeepsInvariant
  exact fun s t hs h => (step_memoryAccessed h).inv hs

/-- Settles O54, by induction on the run. -/
theorem runsGrowMemory : Obligations.RunsGrowMemory := by
  unfold Obligations.RunsGrowMemory
  intro n s t h
  induction h with
  | none s => exact ⟨Nat.le_refl _, id⟩
  | more _ hstep ih =>
    obtain ⟨hlen, hinv⟩ := ih
    have hacc := step_memoryAccessed hstep
    exact ⟨hlen.trans hacc.len_le, fun hs => hacc.inv (hinv hs)⟩

/-- Settles O55: a host write is a store at an address that exists or nothing, and the other two leave memory alone. -/
theorem hostActionsKeepInvariant : Obligations.HostActionsKeepInvariant := by
  unfold Obligations.HostActionsKeepInvariant
  exact fun s hs => ⟨State.patch_inv hs, fun _ => hs, fun t h => enterRun_inv h hs⟩

/-- Settles O52: the reset state is a load too, of the empty image. -/
theorem loadMeetsInvariant : Obligations.LoadMeetsInvariant := by
  unfold Obligations.LoadMeetsInvariant
  exact ⟨load_inv (image := []) (Nat.zero_le _) [] [], fun image inq out h => load_inv h inq out⟩

/-- Settles O51: the image is read back cell by cell; the other fields are set by `load` itself. -/
theorem loadLeavesResetState : Obligations.LoadLeavesResetState := by
  unfold Obligations.LoadLeavesResetState
  exact ⟨fun image inq out => ⟨load_cell image inq out, rfl, rfl, rfl, rfl, rfl, rfl⟩, reset_eq_load⟩

/-- Settles O12: a canonical list is determined by what it reads as. -/
theorem memoryFormIsCanonical : Obligations.MemoryFormIsCanonical := by
  unfold Obligations.MemoryFormIsCanonical
  rintro s t ⟨hs, -⟩ ⟨ht, -⟩ hcells
  exact Memory.ext_of_wf hs ht hcells

end

section
/-! Checked arithmetic, the write accessor and the addressing modes (rules R14, R56, R126 to R130). -/

namespace Sys2Proof.Machine

/-- Narrowing answers the Cell of the exact result, and no other. -/
theorem narrow_eq_ok_iff {x : Int} {r : Cell} : narrow x = .ok r ↔ r.toInt = x := by
  constructor
  · intro h
    by_cases hx : FitsCell x
    · rw [narrow_ok hx] at h
      cases h
      exact Cell.toInt_ofInt hx
    · rw [narrow_error hx] at h
      cases h
  · rintro rfl
    exact narrow_toInt r

/-- Narrowing traps just where the exact result is no Cell (rule R7). -/
theorem narrow_eq_overflow_iff {x : Int} : narrow x = .error Trap.overflow ↔ ¬ FitsCell x := by
  by_cases hx : FitsCell x
  · simp [narrow_ok hx, hx]
  · simp [narrow_error hx, hx]

/-- A store grows memory by the test that rule R56 states: at or beyond `len`, or below it. -/
theorem State.store_eq_ite (s : State) (a : Nat) (v : Cell) :
    s.store a v = { s with mem := (s.store a v).mem, len := if s.len ≤ a then a + 1 else s.len } := by
  rw [← max_len_succ]
  rfl

theorem checkAddress_of_neg {a : Cell} (h : a.toInt < 0) : checkAddress a = .error (Trap.negativeAddress a) := if_pos h

theorem checkAddress_of_nonneg {a : Cell} (h : 0 ≤ a.toInt) : checkAddress a = .ok a.toInt.toNat :=
  if_neg (Int.not_lt.mpr h)

theorem cadd_eq_ok_iff {a b r : Cell} : cadd a b = .ok r ↔ r.toInt = a.toInt + b.toInt := narrow_eq_ok_iff

/-! A Relative slot is a Position slot at `rb + lit`, where that sum is a Cell (rule R128). -/

theorem sourceValue_relative {lit ea : Cell} {s : State} (h : ea.toInt = s.rb.toInt + lit.toInt) :
    sourceValue .relative lit s = sourceValue .position ea s := by
  simp only [sourceValue, cadd_eq_ok_iff.mpr h, bind_ok]

theorem targetAddress_relative {lit ea : Cell} {s : State} (h : ea.toInt = s.rb.toInt + lit.toInt) :
    targetAddress .relative lit s = targetAddress .position ea s := by
  simp only [targetAddress, cadd_eq_ok_iff.mpr h, bind_ok]

theorem relative_overflow {lit : Cell} {s : State} (h : ¬ FitsCell (s.rb.toInt + lit.toInt)) :
    sourceValue .relative lit s = .error Trap.overflow ∧ targetAddress .relative lit s = .error Trap.overflow := by
  rw [sourceValue, targetAddress, cadd, narrow_error h]
  exact ⟨rfl, rfl⟩

theorem position_of_neg {ea : Cell} (h : ea.toInt < 0) (s : State) :
    sourceValue .position ea s = .error (Trap.negativeAddress ea) ∧
      targetAddress .position ea s = .error (Trap.negativeAddress ea) :=
  ⟨memRead_of_neg h s, checkAddress_of_neg h⟩

theorem position_of_nonneg {ea : Cell} (h : 0 ≤ ea.toInt) (s : State) :
    sourceValue .position ea s = .ok (s.cell ea.toInt.toNat, s.grow ea.toInt.toNat) ∧
      targetAddress .position ea s = .ok ea.toInt.toNat :=
  ⟨memRead_of_nonneg h s, checkAddress_of_nonneg h⟩

end Sys2Proof.Machine

open Sys2Proof Sys2Proof.Machine

/-- Settles O9: both operations narrow the exact result. -/
theorem checkedArithmetic : Obligations.CheckedArithmetic := by
  unfold Obligations.CheckedArithmetic
  exact ⟨fun _ _ _ => cadd_eq_ok_iff, fun _ _ => narrow_eq_overflow_iff, fun _ _ _ => narrow_eq_ok_iff,
    fun _ _ => narrow_eq_overflow_iff⟩

/-- Settles O11: past the address check the write is a store. -/
theorem writeAccessor : Obligations.WriteAccessor := by
  unfold Obligations.WriteAccessor
  refine ⟨fun a v s hneg => memWrite_of_neg hneg v s, fun a v s hpos => ?_⟩
  exact ⟨s.store (cellAddress a) v, memWrite_of_nonneg hpos v s, s.cell_store_same _ v,
    fun b hb => s.cell_store_other v hb, s.store_eq_ite (cellAddress a) v⟩

/-- Settles O13: Position is the accessor's address check at the literal, and Relative is Position at the checked sum. -/
theorem addressingModes : Obligations.AddressingModes := by
  unfold Obligations.AddressingModes
  refine fun lit s => ⟨rfl, fun h => position_of_neg h s, fun h => position_of_nonneg h s, relative_overflow,
    fun ea hea h => ?_, fun ea hea h => ?_⟩
  · rw [sourceValue_relative hea, targetAddress_relative hea]
    exact position_of_neg h s
  · rw [sourceValue_relative hea, targetAddress_relative hea]
    exact position_of_nonneg h s

end

section
/-! The machine and the reading straight off the state: what `exec` and `step` answer (rules R120 to R122, R134, R207). -/

namespace Sys2Proof.Machine

/-- An instruction that meets a fault takes it (rules R120 and R208). -/
theorem exec_eq_raise {i : Instr} {s : State} {tr : Trap} (h : faultOf i s = some tr) : exec i s = .next (raise tr s) := by
  rw [exec_eq, h]
  rfl

/-! The fetch and the decoding, where `ip` is an address (rules R121 and R122). -/

theorem fetchDecode_of_decode_ok {s : State} {i : Instr} (h0 : 0 ≤ s.ip.toInt)
    (hd : decode (s.cell (cellAddress s.ip)) = .ok i) : fetchDecode s = .ok i := by
  rw [fetchDecode, fetchWord_eq, if_neg (Int.not_lt.mpr h0)]
  simp only [bind_ok, hd]

theorem step_of_fetchDecode_ok {s : State} {i : Instr} (hrun : s.status = .running) (h : fetchDecode s = .ok i) :
    step s = exec i s := by
  rw [step, hrun]
  simp only [h]

theorem step_of_fetchDecode_error {s : State} {tr : Trap} (hrun : s.status = .running) (h : fetchDecode s = .error tr) :
    step s = .next (raise tr s) := by
  rw [step, hrun]
  simp only [h]

/-- What a running machine answers, whatever its state: the first fault taken, or the effect of the instruction at `ip`. -/
theorem step_of_running {s : State} (hrun : s.status = .running) :
    (∃ tr, stepFault s = some tr ∧ step s = .next (raise tr s)) ∨
      (∃ i, stepFault s = none ∧ decode (s.cell (cellAddress s.ip)) = .ok i ∧ step s = .next (effectOf i s)) := by
  obtain ⟨tr, hf, hfd⟩ | ⟨i, hd, hf, hfd⟩ := fetchDecode_cases s
  · exact .inl ⟨tr, hf, step_of_fetchDecode_error hrun hfd⟩
  · rw [step_of_fetchDecode_ok hrun hfd, hf]
    cases hfault : faultOf i s with
    | some tr => exact .inl ⟨tr, rfl, exec_eq_raise hfault⟩
    | none => exact .inr ⟨i, rfl, hd, exec_eq_effectOf hfault⟩

/-- A fault of the whole step is taken (rule R207). -/
theorem step_of_stepFault {s : State} {tr : Trap} (hrun : s.status = .running) (h : stepFault s = some tr) :
    step s = .next (raise tr s) := by
  obtain ⟨tr', hf, hstep⟩ | ⟨i, hf, -⟩ := step_of_running hrun
  · rw [h] at hf
    cases hf
    exact hstep
  · rw [h] at hf
    cases hf

theorem stepFault_of_neg {s : State} (h : s.ip.toInt < 0) : stepFault s = some (Trap.negativeAddress s.ip) := if_pos h

theorem stepFault_of_decode_error {s : State} {e : DecodeError} (h0 : 0 ≤ s.ip.toInt)
    (hd : decode (s.cell (cellAddress s.ip)) = .error e) : stepFault s = some (Trap.decodeFault e) := by
  rw [stepFault, if_neg (Int.not_lt.mpr h0), hd]

/-! The word in a fault record (rule R28). -/

theorem fetchedWord_of_neg {s : State} (h : s.ip.toInt < 0) : s.fetchedWord = none := if_pos h

theorem fetchedWord_of_nonneg {s : State} (h : 0 ≤ s.ip.toInt) : s.fetchedWord = some (s.cell (cellAddress s.ip)) :=
  if_neg (Int.not_lt.mpr h)

theorem raise_eq (tr : Trap) (s : State) :
    raise tr s = { s with status := .faulted (FaultRecord.mk tr.cause s.ip s.fetchedWord tr.addr) } := rfl

end Sys2Proof.Machine

open Sys2Proof Sys2Proof.Machine

/-- Settles O34: the commit of `exec_eq` on each of the two answers. -/
theorem execRefinesEffect : Obligations.ExecRefinesEffect := by
  unfold Obligations.ExecRefinesEffect
  exact fun i s => ⟨fun tr h => exec_eq_raise h, exec_eq_effectOf⟩

/-- Settles O38: a fault taken is a next state too. -/
theorem everyInstructionAnswers : Obligations.EveryInstructionAnswers := by
  unfold Obligations.EveryInstructionAnswers
  intro i s
  cases h : faultOf i s with
  | some tr => exact ⟨_, exec_eq_raise h⟩
  | none => exact ⟨_, exec_eq_effectOf h⟩

/-- Settles O35: the fetch and the decoding come first, and then the instruction decoded. -/
theorem stepTakesFirstFault : Obligations.StepTakesFirstFault := by
  unfold Obligations.StepTakesFirstFault
  refine fun s hrun => ⟨fun tr h => step_of_stepFault hrun h, fun hnone => ?_⟩
  obtain ⟨tr, hf, -⟩ | ⟨i, -, hd, hstep⟩ := step_of_running hrun
  · rw [hnone] at hf
    cases hf
  · exact ⟨i, hd, hstep⟩

/-- Settles O31: what the fetch and the decoding answer is what is executed, and a decoded instruction is well formed. -/
theorem stepRunsDecodedInstruction : Obligations.StepRunsDecodedInstruction := by
  unfold Obligations.StepRunsDecodedInstruction
  intro s i hrun h0 hd
  obtain ⟨-, hwf⟩ := decode_ok_iff.mp hd
  exact ⟨step_of_fetchDecode_ok hrun (fetchDecode_of_decode_ok h0 hd), hwf⟩

/-- Settles O32: the decode error is the first fault of the step, and its record holds the word fetched. -/
theorem decodeFaultTaken : Obligations.DecodeFaultTaken := by
  unfold Obligations.DecodeFaultTaken
  intro s e hrun h0 hd
  rw [step_of_stepFault hrun (stepFault_of_decode_error h0 hd), raise_eq, fetchedWord_of_nonneg h0]
  rfl

/-- Settles O33: a negative `ip` is the first fault of all; at or beyond `len` the word fetched is 0, which is out of range. -/
theorem fetchOutsideProgram : Obligations.FetchOutsideProgram := by
  unfold Obligations.FetchOutsideProgram
  constructor
  · intro s hrun hneg
    rw [step_of_stepFault hrun (stepFault_of_neg hneg), raise_eq, fetchedWord_of_neg hneg]
    rfl
  · intro s hinv hrun h0 hlen
    have hword : s.cell (cellAddress s.ip) = 0 := State.cell_beyond_len hinv hlen
    have hd : decode (s.cell (cellAddress s.ip)) = .error .rawOutOfRange := by
      rw [hword]
      decide
    rw [step_of_stepFault hrun (stepFault_of_decode_error h0 hd), raise_eq, fetchedWord_of_nonneg h0, hword]
    rfl

end

section
/-! The status after a step, and the fault that a step can take (rules R28, R143, R202, R203 and R210). -/

namespace Sys2Proof.Machine

/-- The status after an instruction that meets no fault: Halt sets it halted, a Read without input sets it waiting, and nothing
else changes it. -/
theorem effectOf_status (i : Instr) (s : State) :
    (i ≠ .halt ∧ (effectOf i s).status = s.status) ∨
    ((∃ m, i = .read m) ∧ s.inq = [] ∧ (effectOf i s).status = .waitingOnInput) ∨
    (i = .halt ∧ (effectOf i s).status = .halted (s.cell 0)) := by
  cases i with
  | halt => exact .inr (.inr ⟨rfl, rfl⟩)
  | read m1 =>
    cases hq : s.inq with
    | nil => exact .inr (.inl ⟨⟨m1, rfl⟩, rfl, by rw [effectOf_read_of_inq_nil m1 hq]⟩)
    | cons v rest => exact .inl ⟨nofun, by rw [effectOf_read_of_inq_cons m1 hq]⟩
  | _ => exact .inl ⟨nofun, rfl⟩

theorem effectOf_status_ne_faulted {i : Instr} {s : State} (hrun : s.status = .running) (r : FaultRecord) :
    (effectOf i s).status ≠ .faulted r := by
  obtain ⟨-, h⟩ | ⟨-, -, h⟩ | ⟨-, h⟩ := effectOf_status i s <;> simp [h, hrun]

/-- A step that ends faulted took the first fault it met. -/
theorem raise_of_step_faulted {s t : State} {r : FaultRecord} (h : step s = .next t) (ht : t.status = .faulted r) :
    ∃ tr, stepFault s = some tr ∧ t = raise tr s ∧ r = faultRecord tr s := by
  obtain ⟨hrun, ⟨tr, hf, rfl⟩ | ⟨i, -, -, rfl⟩⟩ := step_cases h
  · cases ht
    exact ⟨tr, hf, rfl, rfl⟩
  · exact absurd ht (effectOf_status_ne_faulted hrun r)

/-- A Read that meets no fault advances by 2, whether or not there is input (rule R171). -/
theorem effectOf_read_ip {m : Mode} {s : State} (h : faultOf (.read m) s = none) :
    (effectOf (.read m) s).ip.toInt = s.ip.toInt + 2 := by
  have hfits : FitsCell (s.ip.toInt + 2) := resultTrap_eq_none.mp (firstTrap_eq_none_iff.mp h _ (by simp))
  cases hq : s.inq with
  | nil => rw [effectOf_read_of_inq_nil m hq, Cell.toInt_ofInt hfits]
  | cons v rest => rw [effectOf_read_of_inq_cons m hq, Cell.toInt_ofInt hfits]

/-! The faults of a step: a word that does not decode, a negative address, or Overflow. `ImmediateWrite` is not among them,
since a decoded instruction is well formed (conflict C2). -/

/-- A fault that a step can take, with its address where it has one. -/
def Trap.OfStep (tr : Trap) : Prop :=
  (∃ e, tr = Trap.decodeFault e) ∨ (∃ a : Cell, a.toInt < 0 ∧ tr = Trap.negativeAddress a) ∨ tr = Trap.overflow

/-- A check that raises no fault but these. -/
def RaisesOfStep (o : Option Trap) : Prop := ∀ tr, o = some tr → tr.OfStep

theorem raisesOfStep_none : RaisesOfStep none := nofun

theorem raisesOfStep_some {tr : Trap} (h : tr.OfStep) : RaisesOfStep (some tr) := by
  rintro _ ⟨⟩
  exact h

theorem Trap.ofStep_overflow : Trap.overflow.OfStep := .inr (.inr rfl)

theorem Trap.ofStep_negativeAddress {a : Cell} (h : a.toInt < 0) : (Trap.negativeAddress a).OfStep :=
  .inr (.inl ⟨a, h, rfl⟩)

theorem resultTrap_raisesOfStep (x : Int) : RaisesOfStep (resultTrap x) := by
  unfold resultTrap
  split
  · exact raisesOfStep_none
  · exact raisesOfStep_some Trap.ofStep_overflow

theorem codeTrap_raisesOfStep (n : Nat) (s : State) : RaisesOfStep (codeTrap n s) := by
  unfold codeTrap
  split
  · exact raisesOfStep_some (Trap.ofStep_negativeAddress ‹_›)
  · split
    · exact raisesOfStep_none
    · exact raisesOfStep_some Trap.ofStep_overflow

theorem addressTrap_raisesOfStep (ea : Int) : RaisesOfStep (addressTrap ea) := by
  by_cases hf : FitsCell ea
  · by_cases hneg : ea < 0
    · rw [addressTrap_negative hf hneg]
      exact raisesOfStep_some (Trap.ofStep_negativeAddress (by rwa [Cell.toInt_ofInt hf]))
    · rw [addressTrap_none (Int.not_lt.mp hneg) hf.2]
      exact raisesOfStep_none
  · rw [addressTrap_overflow hf]
    exact raisesOfStep_some Trap.ofStep_overflow

theorem sourceTrap_raisesOfStep (m : Mode) (k : Nat) (s : State) : RaisesOfStep (sourceTrap m k s) := by
  cases m with
  | immediate => exact raisesOfStep_none
  | position | relative => exact addressTrap_raisesOfStep _

theorem targetTrap_raisesOfStep {m : Mode} (hm : m.legalTarget = true) (k : Nat) (s : State) :
    RaisesOfStep (targetTrap m k s) := by
  cases m with
  | immediate => cases hm
  | position | relative => exact addressTrap_raisesOfStep _

/-- The first of several checks raises what one of them does. -/
theorem firstTrap_raisesOfStep {ts : List (Option Trap)} (h : ∀ o ∈ ts, RaisesOfStep o) : RaisesOfStep (firstTrap ts) := by
  induction ts with
  | nil => exact raisesOfStep_none
  | cons o ts ih =>
    obtain ⟨ho, hts⟩ := List.forall_mem_cons.mp h
    cases o with
    | some tr => exact ho
    | none => exact ih hts

theorem faultOf_raisesOfStep {i : Instr} (hwf : i.wf = true) (s : State) : RaisesOfStep (faultOf i s) := by
  cases i with
  | jumpIfTrue m1 m2 | jumpIfFalse m1 m2 =>
    have hadvance := resultTrap_raisesOfStep (s.ip.toInt + 3)
    refine firstTrap_raisesOfStep ?_
    simp only [List.forall_mem_cons]
    refine ⟨codeTrap_raisesOfStep _ _, sourceTrap_raisesOfStep _ _ _, sourceTrap_raisesOfStep _ _ _, ?_, nofun⟩
    split
    · exact raisesOfStep_none
    · exact hadvance
  | add m1 m2 m3 | multiply m1 m2 m3 | lessThan m1 m2 m3 | equals m1 m2 m3 | read m1 =>
    have htarget := @targetTrap_raisesOfStep _ hwf
    refine firstTrap_raisesOfStep ?_
    simp [codeTrap_raisesOfStep, sourceTrap_raisesOfStep, htarget, resultTrap_raisesOfStep]
  | write m1 | relativeBaseOffset m1 | halt =>
    refine firstTrap_raisesOfStep ?_
    simp [codeTrap_raisesOfStep, sourceTrap_raisesOfStep, resultTrap_raisesOfStep]

/-- The fetch, the decoding and the instruction decoded raise no other fault. -/
theorem stepFault_raisesOfStep (s : State) : RaisesOfStep (stepFault s) := by
  unfold stepFault
  split
  · exact raisesOfStep_some (Trap.ofStep_negativeAddress ‹_›)
  · split
    next e _ => exact raisesOfStep_some (.inl ⟨e, rfl⟩)
    next i hd => exact faultOf_raisesOfStep (decode_ok_iff.mp hd).2 s

/-- What such a fault leaves in the record. -/
theorem Trap.OfStep.fields {tr : Trap} (h : tr.OfStep) :
    tr.cause ≠ .immediateWrite ∧ (tr.cause = .negativeAddress ↔ ∃ a : Cell, tr.addr = some a ∧ a.toInt < 0) ∧
      (tr.cause ≠ .negativeAddress → tr.addr = none) := by
  obtain ⟨e, rfl⟩ | ⟨a, hneg, rfl⟩ | rfl := h
  · simp [Trap.decodeFault]
  · simp [Trap.negativeAddress, hneg]
  · simp [Trap.overflow]

/-- Only a negative `ip` leaves no word, and it is the first fault of all (rule R121). -/
theorem negativeAddress_of_fetchedWord_eq_none {s : State} {tr : Trap} (hf : stepFault s = some tr)
    (hword : s.fetchedWord = none) : tr.cause = .negativeAddress ∧ tr.addr = some s.ip := by
  by_cases hneg : s.ip.toInt < 0
  · rw [stepFault_of_neg hneg] at hf
    cases hf
    exact ⟨rfl, rfl⟩
  · rw [fetchedWord_of_nonneg (Int.not_lt.mp hneg)] at hword
    cases hword

/-! The loop of `run` (rules R140 and R141). -/

/-- The loop leaves a machine that is not running as it is. -/
theorem runLoop_of_not_running {s : State} (h : s.status ≠ .running) (n : Nat) : runLoop n s = .next s := by
  cases n with
  | zero => rfl
  | succ n => rw [runLoop, if_neg h]

/-- A loop that has ended has ended under every larger budget. -/
theorem runLoop_add {n : Nat} {s t : State} (h : runLoop n s = .next t) (ht : t.status ≠ .running) (k : Nat) :
    runLoop (n + k) s = .next t := by
  induction n generalizing s with
  | zero =>
    cases h
    exact runLoop_of_not_running ht _
  | succ n ih =>
    by_cases hrun : s.status = .running
    · rw [Nat.add_right_comm]
      rw [runLoop, if_pos hrun] at h ⊢
      cases hstep : step s with
      | next u =>
        rw [hstep] at h
        exact ih h
      | fault r | refused r =>
        rw [hstep] at h
        cases h
    · rw [runLoop_of_not_running hrun] at h ⊢
      exact h

end Sys2Proof.Machine

open Sys2Proof Sys2Proof.Machine

/-- Settles O36: of the answers of a step only a fault taken has that status. -/
theorem faultsArePrecise : Obligations.FaultsArePrecise := by
  unfold Obligations.FaultsArePrecise
  intro s t r h ht
  obtain ⟨tr, -, rfl, rfl⟩ := raise_of_step_faulted h ht
  exact ⟨rfl, rfl, rfl⟩

/-- Settles O37: the fault is one of the three kinds a step can take; its word is absent only where the fetch raised it. -/
theorem faultRecordFields : Obligations.FaultRecordFields := by
  unfold Obligations.FaultRecordFields
  intro s t r h ht
  obtain ⟨tr, hf, rfl, rfl⟩ := raise_of_step_faulted h ht
  obtain ⟨hcause, haddr, hnone⟩ := Trap.OfStep.fields (stepFault_raisesOfStep s tr hf)
  exact ⟨hcause, haddr, hnone, negativeAddress_of_fetchedWord_eq_none hf⟩

/-- Settles O42: the step is the effect of a Read without input, and `run` goes on from the state it left. -/
theorem resumePastRead : Obligations.ResumePastRead := by
  unfold Obligations.ResumePastRead
  intro m s hrun h0 h2 hd htarget hq
  have hnone := faultOf_read_eq_none h0 h2 htarget
  refine ⟨effectOf (.read m) s, ?_, ?_⟩
  · rw [step_of_fetchDecode_ok hrun (fetchDecode_of_decode_ok h0 hd), exec_eq_effectOf hnone]
  · have hip := effectOf_read_ip hnone
    rw [effectOf_read_of_inq_nil m hq] at hip ⊢
    refine ⟨rfl, hip, rfl, fun vs => ?_⟩
    rw [enterRun_of_waiting rfl]
    simp [State.supplyInput, State.setStatus, hq]

/-- Settles O43: a fault taken, or the effect of the decoded instruction, whose status says which it was. -/
theorem statusTransitions : Obligations.StatusTransitions := by
  unfold Obligations.StatusTransitions
  intro s t h
  obtain ⟨hrun, ⟨tr, -, rfl⟩ | ⟨i, hnone, hd, rfl⟩⟩ := step_cases h
  · exact ⟨hrun, .inr (.inr (.inr ⟨_, rfl⟩))⟩
  · refine ⟨hrun, ?_⟩
    obtain ⟨hi, hst⟩ | ⟨⟨m, rfl⟩, hq, hst⟩ | ⟨rfl, hst⟩ := effectOf_status i s
    · exact .inl ⟨hst.trans hrun, i, hd, hi⟩
    · have hip := effectOf_read_ip (faultOf_eq_none_of_stepFault hnone hd)
      have hmem : (effectOf (.read m) s).mem = s.mem := by rw [effectOf_read_of_inq_nil m hq]
      exact .inr (.inl ⟨hst, hq, hmem, hip, m, hd⟩)
    · exact .inr (.inr (.inl ⟨hst, rfl, hd⟩))

/-- Settles O44: the entry of `run` does not depend on the budget, and its loop has ended. -/
theorem runBudgetIrrelevant : Obligations.RunBudgetIrrelevant := by
  unfold Obligations.RunBudgetIrrelevant
  intro n k s t h ht
  unfold runFor at h ⊢
  cases he : enterRun s with
  | next u =>
    rw [he] at h
    exact runLoop_add h ht k
  | fault r | refused r =>
    rw [he] at h
    cases h

end

section
/-! Where each instruction completes, and with what result (rules R151, R152, R161, R162, R171, R172, R181, R182, R191, R196). -/

namespace Sys2Proof.Machine

/-! Which checks are left once the word, the literals and the slots have passed theirs. -/

section
variable {m1 m2 m3 : Mode} {s : State} (hcode : CodeOk 3 s) (h1 : SourceOk m1 1 s) (h2 : SourceOk m2 2 s)
include hcode h1 h2

/-- Add, Multiply, LessThan and Equals (rules R150 and R160): the checks of the operation and its advance. -/
theorem firstTrap_store_slots (h3 : TargetOk m3 3 s) (ts : List (Option Trap)) :
    firstTrap (codeTrap 3 s :: sourceTrap m1 1 s :: sourceTrap m2 2 s :: targetTrap m3 3 s :: ts) = firstTrap ts := by
  rw [codeTrap_none hcode, sourceTrap_none h1, sourceTrap_none h2, targetTrap_none h3]
  rfl

/-- A target in Immediate mode is the fault once the sources have passed (rule R203). -/
theorem firstTrap_immediateWrite (ts : List (Option Trap)) :
    firstTrap (codeTrap 3 s :: sourceTrap m1 1 s :: sourceTrap m2 2 s :: targetTrap .immediate 3 s :: ts) =
      some Trap.immediateWrite := by
  rw [codeTrap_none hcode, sourceTrap_none h1, sourceTrap_none h2]
  rfl

end

/-- The jumps (rule R180): the advance, where it is made. -/
theorem firstTrap_jump_slots {m1 m2 : Mode} {s : State} (hcode : CodeOk 2 s) (h1 : SourceOk m1 1 s) (h2 : SourceOk m2 2 s)
    (ts : List (Option Trap)) :
    firstTrap (codeTrap 2 s :: sourceTrap m1 1 s :: sourceTrap m2 2 s :: ts) = firstTrap ts := by
  rw [codeTrap_none hcode, sourceTrap_none h1, sourceTrap_none h2]
  rfl

/-- Write and RelativeBaseOffset: what follows their one source. -/
theorem firstTrap_source_slot {m1 : Mode} {s : State} (hcode : CodeOk 1 s) (h1 : SourceOk m1 1 s)
    (ts : List (Option Trap)) : firstTrap (codeTrap 1 s :: sourceTrap m1 1 s :: ts) = firstTrap ts := by
  rw [codeTrap_none hcode, sourceTrap_none h1]
  rfl

/-! The results. -/

/-- An instruction that stores `v`, `ts` being the checks of its operation, completes where they pass, and changes only its
target, `ip` and `len`. -/
theorem exec_store {i : Instr} {m1 m2 m3 : Mode} {v : Cell} {s : State} {ts : List (Option Trap)} (h0 : 0 ≤ s.ip.toInt)
    (h4 : s.ip.toInt + 4 ≤ cellMax) (h1 : SourceOk m1 1 s) (h2 : SourceOk m2 2 s) (h3 : TargetOk m3 3 s)
    (hf : faultOf i s = firstTrap (codeTrap 3 s :: sourceTrap m1 1 s :: sourceTrap m2 2 s :: targetTrap m3 3 s ::
      (ts ++ [resultTrap (s.ip.toInt + 4)])))
    (he : effectOf i s = afterStore m1 m2 m3 v s) (hts : ∀ t ∈ ts, t = none) :
    ∃ t, exec i s = .next t ∧ t.cell (targetOf m3 3 s) = v ∧ (∀ a, a ≠ targetOf m3 3 s → t.cell a = s.cell a) ∧
      t.ip.toInt = s.ip.toInt + 4 ∧
      t.len = lenAfter s.len (codeCells 3 s ++ sourceCells m1 1 s ++ sourceCells m2 2 s ++ [targetOf m3 3 s]) ∧
      t.rb = s.rb ∧ t.status = s.status ∧ t.inq = s.inq ∧ t.out = s.out := by
  have hadvance : FitsCell (s.ip.toInt + 4) := fitsCell_of_nonneg (by omega) h4
  have hnone : faultOf i s = none := by
    rw [hf, firstTrap_store_slots ⟨h0, by omega⟩ h1 h2 h3, firstTrap_eq_none_iff, List.forall_mem_append,
      List.forall_mem_singleton]
    exact ⟨hts, resultTrap_none hadvance⟩
  exact ⟨afterStore m1 m2 m3 v s, he ▸ exec_eq_effectOf hnone, Memory.read_write_same s.mem _ v,
    fun _ ha => Memory.read_write_other s.mem v ha, Cell.toInt_ofInt hadvance, rfl, rfl, rfl, rfl, rfl⟩

/-- A jump taken where `p` holds completes: to the value of its second slot, or by 3 (rule R180). -/
theorem exec_jump {i : Instr} {m1 m2 : Mode} {s : State} (p : Prop) [Decidable p] (hcode : CodeOk 2 s)
    (h1 : SourceOk m1 1 s) (h2 : SourceOk m2 2 s)
    (hf : faultOf i s = firstTrap [codeTrap 2 s, sourceTrap m1 1 s, sourceTrap m2 2 s,
      if p then none else resultTrap (s.ip.toInt + 3)])
    (he : effectOf i s = afterJump m1 m2 (if p then sourceOf m2 2 s else Cell.ofInt (s.ip.toInt + 3)) s) :
    (p → exec i s = .next (afterJump m1 m2 (sourceOf m2 2 s) s)) ∧
    (¬ p → s.ip.toInt + 3 ≤ cellMax → exec i s = .next (afterJump m1 m2 (Cell.ofInt (s.ip.toInt + 3)) s)) := by
  rw [firstTrap_jump_slots hcode h1 h2, firstTrap_singleton] at hf
  constructor
  · intro hp
    rw [if_pos hp] at hf he
    rw [exec_eq_effectOf hf, he]
  · intro hp h3
    obtain ⟨h0, -⟩ := id hcode
    rw [if_neg hp] at hf he
    rw [exec_eq_effectOf (hf.trans (resultTrap_none (fitsCell_of_nonneg (by omega) h3))), he]

end Sys2Proof.Machine

open Sys2Proof Sys2Proof.Machine

/-- Settles O15: the one check of the operation is the sum's, and the Cell stored is that of the exact sum. -/
theorem addResult : Obligations.AddResult := by
  unfold Obligations.AddResult
  intro m1 m2 m3 s h0 h4 h1 h2 h3 hsum
  obtain ⟨t, hexec, hcell, hrest⟩ := exec_store (i := .add m1 m2 m3) (ts := [resultTrap _]) h0 h4 h1 h2 h3 rfl rfl
    (List.forall_mem_singleton.mpr (resultTrap_none hsum))
  exact ⟨t, hexec, by rw [hcell, Cell.toInt_ofInt hsum], hrest⟩

/-- Settles O16: the one check of the operation is the product's, and the Cell stored is that of the exact product. -/
theorem multiplyResult : Obligations.MultiplyResult := by
  unfold Obligations.MultiplyResult
  intro m1 m2 m3 s h0 h4 h1 h2 h3 hprod
  obtain ⟨t, hexec, hcell, hrest⟩ := exec_store (i := .multiply m1 m2 m3) (ts := [resultTrap _]) h0 h4 h1 h2 h3 rfl rfl
    (List.forall_mem_singleton.mpr (resultTrap_none hprod))
  exact ⟨t, hexec, by rw [hcell, Cell.toInt_ofInt hprod], hrest⟩

/-- Settles O17: the comparison has no check of its own, and stores 1 or 0. -/
theorem lessThanResult : Obligations.LessThanResult := by
  unfold Obligations.LessThanResult
  intro m1 m2 m3 s h0 h4 h1 h2 h3
  obtain ⟨t, hexec, hcell, hrest⟩ := exec_store (i := .lessThan m1 m2 m3) (ts := []) h0 h4 h1 h2 h3 rfl rfl nofun
  exact ⟨t, hexec, fun hlt => hcell.trans (if_pos hlt), fun hge => hcell.trans (if_neg hge), hrest⟩

/-- Settles O18: the comparison has no check of its own, and stores 1 or 0. -/
theorem equalsResult : Obligations.EqualsResult := by
  unfold Obligations.EqualsResult
  intro m1 m2 m3 s h0 h4 h1 h2 h3
  obtain ⟨t, hexec, hcell, hrest⟩ := exec_store (i := .equals m1 m2 m3) (ts := []) h0 h4 h1 h2 h3 rfl rfl nofun
  exact ⟨t, hexec, fun heq => hcell.trans (if_pos heq), fun hne => hcell.trans (if_neg hne), hrest⟩

/-- Settles O19: such a Read meets no fault, and with a value in front of the queue its effect is the store of that value. -/
theorem readWithInput : Obligations.ReadWithInput := by
  unfold Obligations.ReadWithInput
  intro m1 s v rest h0 h2 htarget hq
  have hf := faultOf_read_eq_none h0 h2 htarget
  have hip := effectOf_read_ip hf
  refine ⟨_, exec_eq_effectOf hf, ?_⟩
  rw [effectOf_read_of_inq_cons m1 hq] at hip ⊢
  exact ⟨Memory.read_write_same s.mem _ v, fun a ha => Memory.read_write_other s.mem v ha, rfl, hip, rfl, rfl, rfl, rfl⟩

/-- Settles O21: Write meets no fault once its source and its advance have passed. -/
theorem writeResult : Obligations.WriteResult := by
  unfold Obligations.WriteResult
  intro m1 s h0 h2 h1
  have hadvance : FitsCell (s.ip.toInt + 2) := fitsCell_of_nonneg (by omega) h2
  have hf : faultOf (.write m1) s = none := by
    rw [faultOf, firstTrap_source_slot ⟨h0, by omega⟩ h1, resultTrap_none hadvance]
    rfl
  exact ⟨_, exec_eq_effectOf hf, rfl, Cell.toInt_ofInt hadvance, rfl⟩

/-- Settles O22: a taken jump has no check after its slots, and one that is not taken has its advance. -/
theorem jumpIfTrueResult : Obligations.JumpIfTrueResult := by
  unfold Obligations.JumpIfTrueResult
  intro m1 m2 s hcode h1 h2
  obtain ⟨htaken, hpassed⟩ := exec_jump (i := .jumpIfTrue m1 m2) ((sourceOf m1 1 s).toInt ≠ 0) hcode h1 h2 rfl rfl
  exact ⟨htaken, fun hzero => hpassed (not_not.mpr hzero)⟩

/-- Settles O23: as for JumpIfTrue, with the guard the other way round. -/
theorem jumpIfFalseResult : Obligations.JumpIfFalseResult := by
  unfold Obligations.JumpIfFalseResult
  intro m1 m2 s hcode h1 h2
  exact exec_jump (i := .jumpIfFalse m1 m2) ((sourceOf m1 1 s).toInt = 0) hcode h1 h2 rfl rfl

/-- Settles O24: the source, the sum and the advance pass their checks. -/
theorem relativeBaseOffsetResult : Obligations.RelativeBaseOffsetResult := by
  unfold Obligations.RelativeBaseOffsetResult
  intro m1 s h0 h2 h1 hsum
  have hf : faultOf (.relativeBaseOffset m1) s = none := by
    rw [faultOf, firstTrap_source_slot ⟨h0, by omega⟩ h1, resultTrap_none hsum,
      resultTrap_none (fitsCell_of_nonneg (by omega) h2)]
    rfl
  exact ⟨_, exec_eq_effectOf hf, Cell.toInt_ofInt hsum, effectOf_relativeBaseOffset_ip hf, rfl⟩

/-- Settles O25: the only check of Halt is that its own word exists. -/
theorem haltResult : Obligations.HaltResult := by
  unfold Obligations.HaltResult
  intro s h0
  have hcode : CodeOk 0 s := ⟨h0, by simpa using (fits_toInt s.ip).2⟩
  exact exec_eq_effectOf (i := .halt) (by rw [faultOf, firstTrap_singleton, codeTrap_none hcode])

/-- Settles O14: the write slot is resolved after the sources, and Immediate mode is its fault. -/
theorem handBuiltImmediateWrite : Obligations.HandBuiltImmediateWrite := by
  unfold Obligations.HandBuiltImmediateWrite
  constructor
  · intro s hcode
    refine exec_eq_raise ?_
    rw [faultOf, codeTrap_none hcode]
    rfl
  · intro m1 m2 s hcode h1 h2
    have hslot := firstTrap_immediateWrite hcode h1 h2
    exact ⟨exec_eq_raise (hslot _), exec_eq_raise (hslot _), exec_eq_raise (hslot _), exec_eq_raise (hslot _)⟩

/-- Settles O26: the result is checked right after the slots. -/
theorem resultOverflowTraps : Obligations.ResultOverflowTraps := by
  unfold Obligations.ResultOverflowTraps
  refine ⟨fun m1 m2 m3 s hcode h1 h2 h3 => ⟨fun hsum => ?_, fun hprod => ?_⟩, fun m1 s hcode h1 hsum => ?_⟩ <;>
    refine exec_eq_raise ?_
  · rw [faultOf, firstTrap_store_slots hcode h1 h2 h3, resultTrap_some hsum, firstTrap_some]
  · rw [faultOf, firstTrap_store_slots hcode h1 h2 h3, resultTrap_some hprod, firstTrap_some]
  · rw [faultOf, firstTrap_source_slot hcode h1, resultTrap_some hsum, firstTrap_some]

/-- Settles O27: the target slot is checked before the guard is looked at. -/
theorem untakenJumpResolvesTarget : Obligations.UntakenJumpResolvesTarget := by
  unfold Obligations.UntakenJumpResolvesTarget
  intro s hcode hneg
  have htarget : sourceTrap .position 2 s = some (Trap.negativeAddress (s.literal 2)) := by
    rw [sourceTrap, operandAddress, addressTrap_negative (fits_toInt _) hneg, Cell.ofInt_toInt]
  constructor <;>
  · intro _
    refine exec_eq_raise ?_
    rw [faultOf, codeTrap_none hcode, htarget]
    rfl

end

section
/-! What each instruction leaves unchanged, and what it cannot see (rules R22, R34, R36, R54, R170, R173, R223 and R224). -/

namespace Sys2Proof.Machine

/-! Frames of an instruction that meets no fault. -/

/-- Write alone emits (rule R173). -/
theorem effectOf_out {i : Instr} (hi : ∀ m, i ≠ .write m) (s : State) : (effectOf i s).out = s.out := by
  cases i with
  | write m1 => exact absurd rfl (hi m1)
  | read m1 => cases hq : s.inq <;> simp [effectOf, hq]
  | _ => rfl

/-- Read alone consumes input (rule R173). -/
theorem effectOf_inq {i : Instr} (hi : ∀ m, i ≠ .read m) (s : State) : (effectOf i s).inq = s.inq := by
  cases i with
  | read m1 => exact absurd rfl (hi m1)
  | _ => rfl

/-- A target that resolves is the address that the store goes to (rule R130). -/
theorem targetAddress_literal {m : Mode} {k : Nat} {s : State} (h : targetTrap m k s = none) :
    targetAddress m (s.literal k) s = .ok (targetOf m k s) := by
  have heq := targetAddress_eq m k s []
  rwa [State.touch_nil, h] at heq

/-- The four instructions of rules R150 and R160 store one Cell at a target that resolves. -/
theorem effectOf_eq_afterStore {m1 m2 m3 : Mode} {i : Instr} {s : State}
    (hi : i = .add m1 m2 m3 ∨ i = .multiply m1 m2 m3 ∨ i = .lessThan m1 m2 m3 ∨ i = .equals m1 m2 m3)
    (hnone : faultOf i s = none) :
    (∃ v, effectOf i s = afterStore m1 m2 m3 v s) ∧ targetAddress m3 (s.literal 3) s = .ok (targetOf m3 3 s) := by
  rcases hi with rfl | rfl | rfl | rfl <;>
    exact ⟨⟨_, rfl⟩, targetAddress_literal (firstTrap_eq_none_iff.mp hnone _ (by simp))⟩

/-- The five instructions without a write slot write no cell, and Read is not among them (rule R34). -/
theorem effectOf_mem_of_noStore {i : Instr} (s : State)
    (hi : (∃ m, i = .write m) ∨ (∃ m1 m2, i = .jumpIfTrue m1 m2) ∨ (∃ m1 m2, i = .jumpIfFalse m1 m2)
      ∨ (∃ m, i = .relativeBaseOffset m) ∨ i = .halt) :
    (effectOf i s).mem = s.mem ∧ ∀ m, i ≠ .read m := by
  obtain ⟨m, rfl⟩ | ⟨m1, m2, rfl⟩ | ⟨m1, m2, rfl⟩ | ⟨m, rfl⟩ | rfl := hi <;> exact ⟨rfl, nofun⟩

/-- Where `ip` is after an instruction that meets no fault (rule R22). -/
theorem effectOf_ip {i : Instr} {s : State} (hnone : faultOf i s = none) :
    (i ≠ .halt ∧ (effectOf i s).ip.toInt = s.ip.toInt + i.size) ∨
    (∃ m1 m2, ((i = .jumpIfTrue m1 m2 ∧ (sourceOf m1 1 s).toInt ≠ 0)
        ∨ (i = .jumpIfFalse m1 m2 ∧ (sourceOf m1 1 s).toInt = 0)) ∧ (effectOf i s).ip = sourceOf m2 2 s) ∨
    (i = .halt ∧ (effectOf i s).ip = s.ip) := by
  have hchecks {x : Int} {ts : List (Option Trap)} (hf : faultOf i s = firstTrap ts) (hx : resultTrap x ∈ ts) :
      (Cell.ofInt x).toInt = x :=
    Cell.toInt_ofInt (resultTrap_eq_none.mp (firstTrap_eq_none_iff.mp (hf.symm.trans hnone) _ hx))
  cases i with
  | halt => exact .inr (.inr ⟨rfl, rfl⟩)
  | read m1 => exact .inl ⟨nofun, effectOf_read_ip hnone⟩
  | jumpIfTrue m1 m2 =>
    by_cases hguard : (sourceOf m1 1 s).toInt ≠ 0
    · exact .inr (.inl ⟨m1, m2, .inl ⟨rfl, hguard⟩, if_pos hguard⟩)
    · refine .inl ⟨nofun, ?_⟩
      rw [effectOf, if_neg hguard]
      exact hchecks rfl (by simp [hguard])
  | jumpIfFalse m1 m2 =>
    by_cases hguard : (sourceOf m1 1 s).toInt = 0
    · exact .inr (.inl ⟨m1, m2, .inr ⟨rfl, hguard⟩, if_pos hguard⟩)
    · refine .inl ⟨nofun, ?_⟩
      rw [effectOf, if_neg hguard]
      exact hchecks rfl (by simp [hguard])
  | _ => exact .inl ⟨nofun, hchecks rfl (by simp)⟩

/-! What an instruction cannot see. Its checks look at memory, `ip` and `rb` alone. -/

theorem faultOf_congr {s t : State} (hmem : t.mem = s.mem) (hip : t.ip = s.ip) (hrb : t.rb = s.rb) (i : Instr) :
    faultOf i t = faultOf i s := by
  cases s
  cases t
  cases hmem
  cases hip
  cases hrb
  rfl

/-- From states that agree in memory, `ip` and `rb` an instruction meets the same fault. So where `g` and `f` give the same of a
fault taken and of the effect, they give the same of what `exec` answers. -/
theorem mapNext_exec_congr {i : Instr} {s t : State} {f g : State → State} (hmem : t.mem = s.mem) (hip : t.ip = s.ip)
    (hrb : t.rb = s.rb) (hraise : ∀ tr, g (raise tr t) = f (raise tr s)) (heffect : g (effectOf i t) = f (effectOf i s)) :
    mapNext g (exec i t) = mapNext f (exec i s) := by
  rw [exec_eq, exec_eq, faultOf_congr hmem hip hrb]
  cases faultOf i s with
  | some tr => exact congrArg _ (hraise tr)
  | none => exact congrArg _ heffect

theorem mapNext_id (o : Host.Outcome State Fault Refusal) : mapNext id o = o := by
  cases o <;> rfl

/-- Another memory length makes no difference but in the memory length (rule R36). -/
theorem effectOf_forgetLen (i : Instr) (s : State) (n : Nat) :
    (effectOf i { s with len := n }).forgetLen = (effectOf i s).forgetLen := by
  cases i with
  | read m1 => cases hq : s.inq <;> simp only [effectOf, hq] <;> rfl
  | _ => rfl

theorem exec_forgetLen (i : Instr) (s : State) (n : Nat) :
    mapNext State.forgetLen (exec i { s with len := n }) = mapNext State.forgetLen (exec i s) :=
  mapNext_exec_congr rfl rfl rfl (fun _ => rfl) (effectOf_forgetLen i s n)

/-- The fetch and the decoding look at the word at `ip` alone (rules R121 and R122). -/
theorem fetchDecode_setLen (s : State) (n : Nat) : fetchDecode { s with len := n } = fetchDecode s := by
  rw [fetchDecode, fetchDecode, fetchWord_eq, fetchWord_eq]
  by_cases hneg : s.ip.toInt < 0
  · rw [if_pos hneg, if_pos hneg]
  · rw [if_neg hneg, if_neg hneg]
    rfl

/-- Another queue goes through every instruction but Read as it is. -/
theorem effectOf_setInq {i : Instr} (hi : ∀ m, i ≠ .read m) (s : State) (q : List Cell) :
    effectOf i { s with inq := q } = { effectOf i s with inq := q } := by
  cases i with
  | read m1 => exact absurd rfl (hi m1)
  | _ => rfl

/-- What was emitted before stays in front of what is emitted (rule R225). -/
theorem effectOf_prependOut (i : Instr) (s : State) (q : List Cell) :
    effectOf i { s with out := q ++ s.out } = { effectOf i s with out := q ++ (effectOf i s).out } := by
  cases i with
  | read m1 => cases hq : s.inq <;> simp only [effectOf, hq] <;> rfl
  | write m1 =>
    simp only [effectOf, List.append_assoc]
    rfl
  | _ => rfl

end Sys2Proof.Machine

open Sys2Proof Sys2Proof.Machine

/-- Settles O28: a fault changes only the status, and without one the target resolves and is the one cell stored. -/
theorem threeParameterFrame : Obligations.ThreeParameterFrame := by
  unfold Obligations.ThreeParameterFrame
  intro m1 m2 m3 i s t hi h
  obtain ⟨tr, -, rfl⟩ | ⟨hnone, rfl⟩ := exec_cases h
  · exact ⟨rfl, rfl, rfl, Nat.le_refl _, .inr ⟨_, rfl⟩, fun _ _ _ _ => rfl, fun _ _ _ => rfl⟩
  · obtain ⟨⟨v, he⟩, htarget⟩ := effectOf_eq_afterStore hi hnone
    have hlen := (effectOf_memoryAccessed hnone).len_le
    rw [he] at hlen ⊢
    refine ⟨rfl, rfl, rfl, hlen, .inl rfl, fun d hd a ha => ?_, fun e he => ?_⟩
    · rw [htarget] at hd
      cases hd
      exact Memory.read_write_other s.mem v ha
    · rw [htarget] at he
      cases he

/-- Settles O29: a fault changes only the status; without one the target resolves, and is stored where there is input. -/
theorem readFrame : Obligations.ReadFrame := by
  unfold Obligations.ReadFrame
  intro m1 s t h
  obtain ⟨tr, -, rfl⟩ | ⟨hnone, rfl⟩ := exec_cases h
  · exact ⟨rfl, rfl, Nat.le_refl _, .inr (.inr ⟨_, rfl⟩), fun _ _ _ _ => rfl, fun _ _ _ => rfl, fun _ _ => rfl⟩
  · have htarget := targetAddress_literal (firstTrap_eq_none_iff.mp hnone (targetTrap m1 1 s) (by simp))
    have hlen := (effectOf_memoryAccessed hnone).len_le
    cases hq : s.inq with
    | nil =>
      rw [effectOf_read_of_inq_nil m1 hq] at hlen ⊢
      exact ⟨rfl, rfl, hlen, .inr (.inl ⟨rfl, rfl, rfl⟩), fun _ _ _ _ => rfl, fun _ _ _ => rfl, fun _ _ => rfl⟩
    | cons v rest =>
      rw [effectOf_read_of_inq_cons m1 hq] at hlen ⊢
      refine ⟨rfl, rfl, hlen, .inl rfl, fun d hd a ha => ?_, fun e he => ?_, nofun⟩
      · rw [htarget] at hd
        cases hd
        exact Memory.read_write_other s.mem v ha
      · rw [htarget] at he
        cases he

/-- Settles O30: a fault changes only the status; without one the frames of the effect hold field by field. -/
theorem noStoreFrame : Obligations.NoStoreFrame := by
  unfold Obligations.NoStoreFrame
  intro i s t h hi
  obtain ⟨tr, -, rfl⟩ | ⟨hnone, rfl⟩ := exec_cases h
  · exact ⟨fun _ => rfl, rfl, rfl, Nat.le_refl _, fun _ => rfl, fun _ => rfl, fun _ => .inr ⟨_, rfl⟩, fun _ => rfl⟩
  · obtain ⟨hmem, hread⟩ := effectOf_mem_of_noStore s hi
    have hstatus (hhalt : i ≠ .halt) : (effectOf i s).status = s.status := by
      obtain ⟨-, hst⟩ | ⟨⟨m, rfl⟩, -⟩ | ⟨rfl, -⟩ := effectOf_status i s
      · exact hst
      · exact absurd rfl (hread m)
      · exact absurd rfl hhalt
    refine ⟨fun a => congrArg (Memory.read · a) hmem, hmem, effectOf_inq hread s,
      (effectOf_memoryAccessed hnone).len_le, fun hw => effectOf_out hw s, fun hb => effectOf_rb hb s,
      fun hhalt => .inl (hstatus hhalt), ?_⟩
    rintro rfl
    rfl

/-- Settles O46: a fault leaves both queues; an effect leaves the input but for Read, and the output but for Write. -/
theorem onlyReadAndWriteDoInputOutput : Obligations.OnlyReadAndWriteDoInputOutput := by
  unfold Obligations.OnlyReadAndWriteDoInputOutput
  intro i s t h
  obtain ⟨tr, -, rfl⟩ | ⟨-, rfl⟩ := exec_cases h
  · exact ⟨.inl rfl, .inl rfl⟩
  · constructor
    · by_cases hi : ∃ m, i = .read m
      · obtain ⟨m, rfl⟩ := hi
        cases hq : s.inq with
        | nil => exact .inl (by rw [effectOf_read_of_inq_nil m hq, hq])
        | cons v rest => exact .inr ⟨m, v, rfl, by rw [effectOf_read_of_inq_cons m hq]⟩
      · exact .inl (effectOf_inq (not_exists.mp hi) s)
    · by_cases hi : ∃ m, i = .write m
      · obtain ⟨m, rfl⟩ := hi
        exact .inr ⟨m, sourceOf m 1 s, rfl, rfl⟩
      · exact .inl (effectOf_out (not_exists.mp hi) s)

/-- Settles O47: a fault taken, or one of the three ways of the effect. -/
theorem ipChangesInThreeWays : Obligations.IpChangesInThreeWays := by
  unfold Obligations.IpChangesInThreeWays
  intro i s t h
  obtain ⟨tr, -, rfl⟩ | ⟨hnone, rfl⟩ := exec_cases h
  · exact .inl ⟨_, rfl⟩
  · exact .inr (effectOf_ip hnone)

/-- Settles O48: neither the status, nor the word fetched, nor the checks and effect of its instruction depend on `len`. -/
theorem lengthIsInvisible : Obligations.LengthIsInvisible := by
  unfold Obligations.LengthIsInvisible
  intro s n
  unfold step
  rw [fetchDecode_setLen]
  cases hst : s.status with
  | running =>
    cases fetchDecode s with
    | ok i => simpa only [hst] using exec_forgetLen i s n
    | error tr => rfl
  | _ => rfl

/-- Settles O49: no check looks at the queue, and every effect but that of Read hands it on. -/
theorem inputVisibleOnlyToRead : Obligations.InputVisibleOnlyToRead := by
  unfold Obligations.InputVisibleOnlyToRead
  intro i s q hi
  rw [← mapNext_id (exec i { s with inq := q })]
  exact mapNext_exec_congr rfl rfl rfl (fun _ => rfl) (effectOf_setInq hi s q)

/-- Settles O50: no check looks at the output, and every effect adds at its end or leaves it. -/
theorem outputVisibleToNone : Obligations.OutputVisibleToNone := by
  unfold Obligations.OutputVisibleToNone
  intro i s q
  rw [← mapNext_id (exec i { s with out := q ++ s.out })]
  exact mapNext_exec_congr rfl rfl rfl (fun _ => rfl) (effectOf_prependOut i s q)

end
